-- ==== Sys2Proof/Word.lean ====
section
/-! DEFINITION. The word of the block and the two field types of an instruction word
(spec/00_scope.md R6, R7, R8; spec/30_encoding.md R91). -/

namespace Sys2Proof

/-- A `Word`: a 32-bit pattern, read as two's-complement signed where it is used as a number (R8). -/
abbrev Word := BitVec 32

/-- The 16-bit pattern `fieldC` (R91, R95). -/
abbrev Half := BitVec 16

/-- A 3-bit register index in `0..7` (R21, R94). -/
abbrev RegIdx := BitVec 3

end Sys2Proof
end

