-- ==== Sys2Proof/Config.lean ====
section
/-! DEFINITION. The implementation parameters of spec/00_scope.md R6 (configuration, not state:
spec/10_state.md R44). They travel with `Machine.State` as its field `config`, which no cycle changes
(notes/assumptions/2.md), so every claim is about every value of them. -/

namespace Sys2Proof

/-- The parameters of the block (R6). -/
structure Config where
  /-- `MEM_SIZE`: words in instruction memory and in data memory (D2, OPEN). -/
  memSize : Nat
  /-- D8: an unrecognised word in `EXMEM` raises `UnrecognizedOpcode` when true. -/
  unrecognizedOpcodeFaults : Bool
  /-- D9: a `jalr` in `EXMEM` raises `JalrUnimplemented` when true. -/
  jalrFaults : Bool
deriving DecidableEq, Repr

/-- The range D2 gives `MEM_SIZE`: a positive integer, at most 2^31. -/
def Config.valid (c : Config) : Bool :=
  decide (0 < c.memSize) && decide (c.memSize ≤ 2 ^ 31)

/-- The parameters `State.reset` takes. The flags are the spec's defaults (R6).
DESIGN CHOICE (notes/assumptions/2.md, unsafe): `MEM_SIZE = 65536`, which D2 lets a model take as its default. -/
def Config.standard : Config :=
  { memSize := 65536, unrecognizedOpcodeFaults := false, jalrFaults := false }

end Sys2Proof
end

