-- ==== Sys2Proof/Syntax.lean ====
section
/-! DEFINITION. The opcodes and the instructions: one constructor of `Instr` per row of
spec/opcode_table.json, each with every field of its word, the ignored ones too (spec/30_encoding.md
R91, R92, R97), because ignored fields still take part in the hazard comparison (R102) and no bit of a
latch is lost. -/

namespace Sys2Proof

/-- The eight opcodes of R92, by the spec's mnemonics. -/
inductive Op
  | add
  | nor
  | lw
  | sw
  | beq
  | jalr
  | halt
  | noop
deriving DecidableEq, Repr

/-- The number R92 gives each opcode (decision D1). -/
def Op.number : Op → Nat
  | .add => 0
  | .nor => 1
  | .lw => 2
  | .sw => 3
  | .beq => 4
  | .jalr => 5
  | .halt => 6
  | .noop => 7

/-- An instruction. Offsets of the I format are the signed numbers of R96 and R105. -/
inductive Instr
  /-- `add`: sources `regA`, `regB`; destination `fieldC[2:0]` (R201). -/
  | add (regA regB : RegIdx) (fieldC : Half)
  /-- `nor`: sources `regA`, `regB`; destination `fieldC[2:0]` (R202). -/
  | nor (regA regB : RegIdx) (fieldC : Half)
  /-- `lw`: base `regA`, destination `regB` (R203). -/
  | lw (regA regB : RegIdx) (offset : Int)
  /-- `sw`: base `regA`, store data `regB` (R204). -/
  | sw (regA regB : RegIdx) (offset : Int)
  /-- `beq`: sources `regA`, `regB`; target `pc + 1 + offset` (R205). -/
  | beq (regA regB : RegIdx) (offset : Int)
  /-- `jalr`: decoded only (R206). -/
  | jalr (regA regB : RegIdx) (fieldC : Half)
  /-- `halt`: any word with opcode 6 (R207, D22). -/
  | halt (regA regB : RegIdx) (fieldC : Half)
  /-- `noop`: any word with opcode 7 (R208, D22). -/
  | noop (regA regB : RegIdx) (fieldC : Half)
deriving DecidableEq, Repr

/-- The opcode of an instruction. -/
def Instr.op : Instr → Op
  | .add _ _ _ => .add
  | .nor _ _ _ => .nor
  | .lw _ _ _ => .lw
  | .sw _ _ _ => .sw
  | .beq _ _ _ => .beq
  | .jalr _ _ _ => .jalr
  | .halt _ _ _ => .halt
  | .noop _ _ _ => .noop

end Sys2Proof
end

