-- ==== Sys2Proof/WellFormed.lean ====
section
/-! DEFINITION. Well-formed instructions. Register indices and `fieldC` carry their bounds in their
types; the signed offset of an I-format instruction must lie in `[-32768, 32767]`
(spec/30_encoding.md R96, R100, R105). -/

namespace Sys2Proof

/-- The range of a signed 16-bit offset (R96, R105). -/
def offsetInRange (off : Int) : Bool :=
  decide (-32768 ≤ off) && decide (off ≤ 32767)

/-- The instruction is one the encoding can hold. -/
def Instr.wellFormed : Instr → Bool
  | .add _ _ _ => true
  | .nor _ _ _ => true
  | .lw _ _ off => offsetInRange off
  | .sw _ _ off => offsetInRange off
  | .beq _ _ off => offsetInRange off
  | .jalr _ _ _ => true
  | .halt _ _ _ => true
  | .noop _ _ _ => true

end Sys2Proof
end

