-- ==== Sys2Proof/Decode.lean ====
section
/-! DEFINITION. The decoder (the document's Instruction Codec, spec/30_encoding.md R93 to R98, R107) and,
after it, the encoder (R100). Decoding is total on words: a word whose opcode is outside 0..7 is refused
by name (R101). -/

namespace Sys2Proof

/-- `opcode(w) = sext_10(w[31:22])`, an integer in `[-512, 511]` (R93). -/
def opcode (w : Word) : Int := (w.extractLsb' 22 10).toInt

/-- `fieldA(w) = w[21:19]` (R94). -/
def fieldA (w : Word) : RegIdx := w.extractLsb' 19 3

/-- `fieldB(w) = w[18:16]` (R94). -/
def fieldB (w : Word) : RegIdx := w.extractLsb' 16 3

/-- `fieldC(w) = w[15:0]` (R95). -/
def fieldC (w : Word) : Half := w.extractLsb' 0 16

/-- `imm(w) = sext_16(w[15:0])`, held as a Word (R96). -/
def imm (w : Word) : Word := (fieldC w).signExtend 32

/-- The register index `fieldC[2:0]`: only the low 3 bits count (R95, R99). -/
def destIndex (c : Half) : RegIdx := c.extractLsb' 0 3

/-- The opcode R92 names by an opcode number, if it names one. -/
def opOf (w : Word) : Option Op :=
  match opcode w with
  | 0 => some .add
  | 1 => some .nor
  | 2 => some .lw
  | 3 => some .sw
  | 4 => some .beq
  | 5 => some .jalr
  | 6 => some .halt
  | 7 => some .noop
  | _ => none

/-- Why a word is no instruction. -/
inductive DecodeError
  /-- Its opcode is outside `0..7` (R101): the decoder refuses it; the pipeline passes it as an inert word (R209). -/
  | unrecognizedOpcode (w : Word)
deriving DecidableEq, Repr

/-- The instruction a word stands for (R97, R107). -/
def decode (w : Word) : Except DecodeError Instr :=
  match opOf w with
  | some .add => .ok (.add (fieldA w) (fieldB w) (fieldC w))
  | some .nor => .ok (.nor (fieldA w) (fieldB w) (fieldC w))
  | some .lw => .ok (.lw (fieldA w) (fieldB w) (fieldC w).toInt)
  | some .sw => .ok (.sw (fieldA w) (fieldB w) (fieldC w).toInt)
  | some .beq => .ok (.beq (fieldA w) (fieldB w) (fieldC w).toInt)
  | some .jalr => .ok (.jalr (fieldA w) (fieldB w) (fieldC w))
  | some .halt => .ok (.halt (fieldA w) (fieldB w) (fieldC w))
  | some .noop => .ok (.noop (fieldA w) (fieldB w) (fieldC w))
  | none => .error (.unrecognizedOpcode w)

/-- The word `w` is the instruction `i`. -/
def Instr.isWord (i : Instr) (w : Word) : Bool :=
  match decode w with
  | .ok j => decide (j = i)
  | .error _ => false

/-- The host's view of the decoder: the table's words are 32 bits in one Word, bit 0 the least
significant (R7, R90); bits at and above `nbits` are 0. -/
def decodeTableWord (nbits w : Nat) : Option Instr :=
  match decode (BitVec.ofNat 32 (w % 2 ^ nbits)) with
  | .ok i => some i
  | .error _ => none

/-- `encode(op, A, B, C) = (op << 22) | (A << 19) | (B << 16) | (C & 0xFFFF)` (R100). -/
def encodeFields (op : Nat) (a b : RegIdx) (c : Half) : Word :=
  (BitVec.ofNat 32 op <<< 22) ||| (a.setWidth 32 <<< 19) ||| (b.setWidth 32 <<< 16) ||| c.setWidth 32

/-- A signed offset taken modulo 2^16 (R100). -/
def offsetBits (off : Int) : Half := BitVec.ofInt 16 off

/-- The word of an instruction (R97, R100). -/
def encode : Instr → Word
  | .add a b c => encodeFields 0 a b c
  | .nor a b c => encodeFields 1 a b c
  | .lw a b off => encodeFields 2 a b (offsetBits off)
  | .sw a b off => encodeFields 3 a b (offsetBits off)
  | .beq a b off => encodeFields 4 a b (offsetBits off)
  | .jalr a b c => encodeFields 5 a b c
  | .halt a b c => encodeFields 6 a b c
  | .noop a b c => encodeFields 7 a b c

/-- `NOOP_WORD`, the canonical no-op: opcode `noop`, every other field 0 (R98). -/
def noopWord : Word := 0x01C00000#32

end Sys2Proof
end

