-- ==== Sys2Proof/Machine/State.lean ====
section
/-! DEFINITION. Everything the spec gives the machine (spec/10_state.md R20 to R41), as plain data, and the
state after reset (R42, spec/70_reset_and_hazards.md R270, R271). -/

namespace Sys2Proof.Machine

/-- A memory: pairs (word address, word), addresses strictly rising, no pair whose word is what an
unlisted address reads as (`Memory.unlisted`). The block has no bytes (spec/20_memory.md R61, R62), so a
cell holds a whole word (notes/assumptions/3.md). -/
abbrev Memory := List (Nat × Word)

/-- The eight general registers `reg[0..7]` (R21). -/
abbrev RegFile := Vector Word 8

/-- The Fetch→Decode latch (R30). -/
structure IFID where
  instr : Word
  /-- The address the word was fetched from, plus one. -/
  pcPlus1 : Word
deriving DecidableEq, Repr

/-- The Decode→Execute latch (R31). -/
structure IDEX where
  instr : Word
  pcPlus1 : Word
  /-- The register read for `fieldA`, before forwarding. -/
  readRegA : Word
  /-- The register read for `fieldB`, before forwarding. -/
  readRegB : Word
  /-- `imm(instr)`. -/
  offset : Word
deriving DecidableEq, Repr

/-- The Execute→Memory latch (R32). -/
structure EXMEM where
  instr : Word
  /-- `offset + pcPlus1`. -/
  branchTarget : Word
  /-- The only flag (R36): the forwarded operands A and B are equal. -/
  eq : Bool
  aluResult : Word
  /-- The forwarded operand B, the store data. -/
  readRegB : Word
deriving DecidableEq, Repr

/-- The Memory→Writeback latch (R33). -/
structure MEMWB where
  instr : Word
  writeData : Word
deriving DecidableEq, Repr

/-- The Writeback→retire latch (R34). -/
structure WBEND where
  instr : Word
  writeData : Word
deriving DecidableEq, Repr

/-- The fault reasons of spec/60_exceptions.md R244, the values of `State.fault`. -/
inductive FaultReason
  /-- Fetch with `pc` outside `[0, MEM_SIZE)`. -/
  | fetchOutOfRange (pc : Word)
  /-- A `lw` in `EXMEM` whose address is outside `[0, MEM_SIZE)`. -/
  | loadOutOfRange (addr : Word)
  /-- A `sw` in `EXMEM` whose address is outside `[0, MEM_SIZE)`. -/
  | storeOutOfRange (addr : Word)
  /-- An unrecognised word in `EXMEM` with `unrecognizedOpcodeFaults`. -/
  | unrecognizedOpcode (w : Word)
  /-- A `jalr` in `EXMEM` with `jalrFaults`. -/
  | jalrUnimplemented (w : Word)
deriving DecidableEq, Repr

/-- The state of the block: R20's list, the spec's `fault` (R38), and the parameters of R6, which the
spec calls configuration (R44) and the model carries unchanged (notes/assumptions/2.md). -/
structure State where
  config : Config
  pc : Word
  imem : Memory
  dmem : Memory
  reg : RegFile
  ifid : IFID
  idex : IDEX
  exmem : EXMEM
  memwb : MEMWB
  wbend : WBEND
  cycles : Nat
  fault : Option FaultReason
deriving DecidableEq, Repr

/-- Why there is no step (spec/41_pipeline.md R141). Raised by `Machine.step` alone. -/
inductive Fault
  /-- The state holds a fault: it has no further step and is not final (R245). Safe: the spec gives no next state. -/
  | stuck (reason : FaultReason)
  /-- The state is final: a `halt` is in `WBEND` (R275). Safe: the spec gives no next state. -/
  | runEnded
deriving DecidableEq, Repr

/-- What the model gives no meaning. No arm of `exec` answers it in this model. -/
inductive Refusal
  /-- An instruction without a meaning yet, by its mnemonic. Raised by `exec` alone; safe. -/
  | notModelled (mnemonic : String)
deriving DecidableEq, Repr

/-- Reset with its inputs `IMEM0` and `DMEM0` (R270, R271; R173's `rst`). -/
def State.resetWith (config : Config) (imem0 dmem0 : Memory) : State :=
  { config := config
    pc := 0#32
    imem := imem0
    dmem := dmem0
    reg := Vector.replicate 8 0#32
    ifid := { instr := noopWord, pcPlus1 := 0#32 }
    idex := { instr := noopWord, pcPlus1 := 0#32, readRegA := 0#32, readRegB := 0#32, offset := 0#32 }
    exmem := { instr := noopWord, branchTarget := 0#32, eq := false, aluResult := 0#32, readRegB := 0#32 }
    memwb := { instr := noopWord, writeData := 0#32 }
    wbend := { instr := noopWord, writeData := 0#32 }
    cycles := 0
    fault := none }

/-- The machine right after reset (R42), with `IMEM0` and `DMEM0` all zero.
DESIGN CHOICE (notes/assumptions/4.md): the memories are reset inputs and no program is loaded here. -/
def State.reset : State := State.resetWith Config.standard [] []

end Sys2Proof.Machine
end

