-- ==== Sys2Proof/Machine/Ops.lean ====
section
/-! DEFINITION. The named operations over memory and registers, the address check, and taking a fault
(spec/20_memory.md, spec/60_exceptions.md R245). -/

namespace Sys2Proof.Machine

/-- What a word of memory that no pair lists reads as: words past the image are 0 (R271, D4). -/
def Memory.unlisted : Word := 0#32

/-- One word of a memory (R64). -/
def Memory.read : Memory → Nat → Word
  | [], _ => Memory.unlisted
  | (k, v) :: rest, a => if a = k then v else if a < k then Memory.unlisted else Memory.read rest a

/-- Puts a pair in front, unless an unlisted address already reads as its word. -/
def Memory.cell (a : Nat) (v : Word) (m : Memory) : Memory :=
  if v = Memory.unlisted then m else (a, v) :: m

/-- Write one word (R64, R67); keeps the canonical form. -/
def Memory.write : Memory → Nat → Word → Memory
  | [], a, v => Memory.cell a v []
  | (k, u) :: rest, a, v =>
    if a = k then Memory.cell a v rest
    else if a < k then Memory.cell a v ((k, u) :: rest)
    else (k, u) :: Memory.write rest a v

/-- Every listed address is above `a`, and the form below it is canonical. -/
def Memory.wfAbove : Nat → Memory → Bool
  | _, [] => true
  | a, (k, v) :: rest => decide (a < k) && decide (v ≠ Memory.unlisted) && Memory.wfAbove k rest

/-- The canonical form: addresses strictly rising, no word equal to what an unlisted address reads as. -/
def Memory.wf : Memory → Bool
  | [] => true
  | (k, v) :: rest => decide (v ≠ Memory.unlisted) && Memory.wfAbove k rest

/-- Every listed address is below `n`. -/
def Memory.within (n : Nat) : Memory → Bool
  | [] => true
  | (k, _) :: rest => decide (k < n) && Memory.within n rest

/-- The words of a list, from address `a` on, written into a memory. -/
def Memory.place : Memory → Nat → List Word → Memory
  | m, _, [] => m
  | m, a, w :: ws => Memory.place (Memory.write m a w) (a + 1) ws

/-- The memory that holds a program image from address 0 on (R70, R271). -/
def Memory.ofImage (image : List Word) : Memory := Memory.place [] 0 image

/-- Reset with a program image, double-mapped into both memories as the loader does (R271, D5). -/
def State.boot (config : Config) (image : List Word) : State :=
  State.resetWith config (Memory.ofImage image) (Memory.ofImage image)

/-- `reg[i]`; no register is hardwired (R21, R22). -/
def RegFile.read (r : RegFile) (i : RegIdx) : Word := r[i.toNat]

/-- `reg[i] <- v` (R22, R24). -/
def RegFile.write (r : RegFile) (i : RegIdx) (v : Word) : RegFile := r.set i.toNat v

/-- Write the destination register, if there is one (R162 to R164). -/
def RegFile.writeDest (r : RegFile) (dest : Option RegIdx) (v : Word) : RegFile :=
  match dest with
  | some i => r.write i v
  | none => r

/-- `inRange(n) = 0 <= n < MEM_SIZE`, `n` read as signed (R61, R142). -/
def State.inRange (s : State) (n : Word) : Bool :=
  decide (0 ≤ n.toInt) && decide (n.toInt < (s.config.memSize : Int))

/-- The place of an address word in a memory's list. -/
def addressOf (n : Word) : Nat := n.toNat

/-- `IMemRead(a)` (R65). -/
def State.imemRead (s : State) (a : Word) : Word := s.imem.read (addressOf a)

/-- `DMemRead(a)` (R66). -/
def State.dmemRead (s : State) (a : Word) : Word := s.dmem.read (addressOf a)

/-- `DMemWrite(a, v)` on the data memory of `s` (R67). -/
def State.dmemWrite (s : State) (a v : Word) : Memory := s.dmem.write (addressOf a) v

/-- `raise <Fault>(info)`: the cycle commits nothing but the fault (R245). The one shared operation that
takes an exception; the spec has no return from it (R247). -/
def State.raise (s : State) (reason : FaultReason) : State := { s with fault := some reason }

/-- The `halt` that ends the run is in `WBEND` (R141, R275). -/
def State.haltRetired (s : State) : Bool := decide (opOf s.wbend.instr = some .halt)

/-- A final state (R275). -/
def State.isFinal (s : State) : Bool := decide (s.fault = none) && s.haltRetired

/-- Fetch may read at `pc` (R72, R144). -/
def State.fetchable (s : State) : Bool := s.inRange s.pc

/-- The word Fetch reads in this cycle (R65). -/
def State.fetchWord (s : State) : Word := s.imemRead s.pc

end Sys2Proof.Machine
end

