-- ==== Sys2Proof/Machine/Operands.lean ====
section
/-! DEFINITION. Where an instruction's operands come from: the register file at Decode, corrected by the
forwarding resolver at Execute (spec/41_pipeline.md R145, R150 to R155). -/

namespace Sys2Proof.Machine

/-- `dest(w)`: the register a writer writes, none for a word that is no writer (R150, R151). -/
def destOf (w : Word) : Option RegIdx :=
  match opOf w with
  | some .add => some (destIndex (fieldC w))
  | some .nor => some (destIndex (fieldC w))
  | some .lw => some (fieldB w)
  | _ => none

/-- One step of the resolver: a latch's value overwrites on a match (R152). -/
def forwardFrom (latchWord latchValue : Word) (i : RegIdx) (v : Word) : Word :=
  if destOf latchWord = some i then latchValue else v

/-- The forwarding resolver for one register index: `WBEND` first, then `MEMWB`, then `EXMEM`, so the
nearest writer wins (R152, R153). A `lw` in `EXMEM` forwards its address (R155). -/
def State.forward (s : State) (i : RegIdx) (v : Word) : Word :=
  forwardFrom s.exmem.instr s.exmem.aluResult i
    (forwardFrom s.memwb.instr s.memwb.writeData i
      (forwardFrom s.wbend.instr s.wbend.writeData i v))

/-- The forwarded operand `a` of the word in `IDEX` (R152, R154). -/
def State.operandA (s : State) : Word := s.forward (fieldA s.idex.instr) s.idex.readRegA

/-- The forwarded operand `b` of the word in `IDEX` (R152, R154). -/
def State.operandB (s : State) : Word := s.forward (fieldB s.idex.instr) s.idex.readRegB

end Sys2Proof.Machine
end

