-- ==== Sys2Proof/Machine/Flags.lean ====
section
/-! DEFINITION. The one flag of the block, `EXMEM.eq`, and the two conditions the pipeline's controllers
test (spec/10_state.md R36, spec/40_alu.md R126, spec/41_pipeline.md R147, R159). -/

namespace Sys2Proof.Machine

/-- The comparator: the forwarded operands are the same 32-bit pattern, whatever the opcode (R36, R126). -/
def State.operandsEqual (s : State) : Bool := decide (s.operandA = s.operandB)

/-- `fieldA(d)` or `fieldB(d)` is the destination `fieldB(x)` of the load `x`, whatever `d`'s opcode (R147, D7). -/
def namesLoadDest (d x : Word) : Bool :=
  decide (fieldA d = fieldB x) || decide (fieldB d = fieldB x)

/-- The load-use condition: a `lw` in `IDEX` whose destination the word in `IFID` names (R147). -/
def State.loadUse (s : State) : Bool :=
  decide (opOf s.idex.instr = some .lw) && namesLoadDest s.ifid.instr s.idex.instr

/-- A taken branch: a `beq` in `EXMEM` with `eq = 1` (R159). -/
def State.branchTaken (s : State) : Bool :=
  decide (opOf s.exmem.instr = some .beq) && s.exmem.eq

end Sys2Proof.Machine
end

