-- ==== Sys2Proof/Machine/Alu.lean ====
section
/-! DEFINITION. The ALU and the target adder (spec/40_alu.md R120 to R129): every result modulo 2^32, no
flag, no trap. -/

namespace Sys2Proof.Machine

/-- The ALU's operations (R129). -/
inductive AluOp
  /-- `a + b` (R121). -/
  | add
  /-- `~(a | b)` (R122). -/
  | nor
  /-- `a + offset`, the effective address (R123). -/
  | address
  /-- `offset + pcPlus1`, the branch target (R124). -/
  | target
  /-- 0, for every other word (R125, D10). -/
  | zero
deriving DecidableEq, Repr

/-- `alu(op, a, b, offset, pcPlus1)` (R120 to R125). -/
def alu (op : AluOp) (a b offset pcPlus1 : Word) : Word :=
  match op with
  | .add => a + b
  | .nor => ~~~(a ||| b)
  | .address => a + offset
  | .target => offset + pcPlus1
  | .zero => 0#32

/-- The target adder, whatever the opcode (R127). -/
def State.targetOf (s : State) : Word := s.idex.offset + s.idex.pcPlus1

end Sys2Proof.Machine
end

