-- ==== Sys2Proof/Machine/Stages.lean ====
section
/-! DEFINITION. The five stages, the stall and the squash as operations on a pair `S`, `S'` (spec/41_pipeline.md
R140, R143 to R168): every value comes from the snapshot `s`, the writes go to the next snapshot `s'`. Then
the work of all stages for ONE instruction, the shared operation every meaning of Machine/ is a call of. -/

namespace Sys2Proof.Machine

/-- Fetch (R143). -/
def fetchStage (s s' : State) : State :=
  { s' with
    ifid := { instr := s.fetchWord, pcPlus1 := s.pc + 1#32 }
    pc := s.pc + 1#32 }

/-- Decode, whatever the opcode (R145). -/
def decodeStage (s s' : State) : State :=
  { s' with
    idex :=
      { instr := s.ifid.instr
        pcPlus1 := s.ifid.pcPlus1
        readRegA := s.reg.read (fieldA s.ifid.instr)
        readRegB := s.reg.read (fieldB s.ifid.instr)
        offset := imm s.ifid.instr } }

/-- The stall (R148): `pc` and `IFID` are held and `IDEX` receives the bubble, its other fields kept (R167). -/
def stallStage (s s' : State) : State :=
  { s' with
    pc := s.pc
    ifid := s.ifid
    idex := { s'.idex with instr := noopWord } }

/-- Execute, whatever the opcode, with the opcode's ALU operation (R149). -/
def executeStage (op : AluOp) (s s' : State) : State :=
  { s' with
    exmem :=
      { instr := s.idex.instr
        branchTarget := s.targetOf
        eq := s.operandsEqual
        aluResult := alu op s.operandA s.operandB s.idex.offset s.idex.pcPlus1
        readRegB := s.operandB } }

/-- Memory for every word but a load: the ALU result is the default write-back value (R158). -/
def passStage (s s' : State) : State :=
  { s' with memwb := { instr := s.exmem.instr, writeData := s.exmem.aluResult } }

/-- Memory for a load (R66, R156). -/
def loadStage (s s' : State) : State :=
  { s' with memwb := { instr := s.exmem.instr, writeData := s.dmemRead s.exmem.aluResult } }

/-- Memory for a store: the default write-back value, and the one write to data memory (R67, R157, R158). -/
def storeStage (s s' : State) : State :=
  { passStage s s' with dmem := s.dmemWrite s.exmem.aluResult s.exmem.readRegB }

/-- The squash (R160): `pc` is redirected and three latches of the next snapshot receive the bubble, their
other fields kept (R167). -/
def squashStage (s s' : State) : State :=
  { s' with
    pc := s.exmem.branchTarget
    ifid := { s'.ifid with instr := noopWord }
    idex := { s'.idex with instr := noopWord }
    exmem := { s'.exmem with instr := noopWord } }

/-- Writeback and retire: at most one register, and `WBEND <- MEMWB` (R162 to R165). -/
def writebackStage (dest : Option RegIdx) (s s' : State) : State :=
  { s' with
    reg := s.reg.writeDest dest s.memwb.writeData
    wbend := { instr := s.memwb.instr, writeData := s.memwb.writeData } }

/-- What an instruction does in the Memory stage. -/
inductive MemOp
  /-- Nothing but pass the ALU result (R158). -/
  | pass
  /-- Load; while in `IDEX` it is the producer the hazard detector checks (R147, R156). -/
  | load
  /-- Store (R157). -/
  | store
  /-- Resolve a branch (R159, R160). -/
  | branch
  /-- `jalr`: pass, or the fault of D9 when the parameter says so (R206). -/
  | unimplemented
  /-- An unrecognised word: pass, or the fault of D8 when the parameter says so (R209). -/
  | unrecognized
deriving DecidableEq, Repr

/-- All in which one opcode differs from another: its ALU operation, its Memory-stage action, its
destination at Writeback (R200). -/
structure Control where
  alu : AluOp
  mem : MemOp
  dest : Option RegIdx
deriving DecidableEq, Repr

/-- The fault the word in `EXMEM` raises, if its action is `m` (R72, R206, R209, R244). -/
def State.memoryFault (s : State) (m : MemOp) : Option FaultReason :=
  match m with
  | .load => if s.inRange s.exmem.aluResult then none else some (.loadOutOfRange s.exmem.aluResult)
  | .store => if s.inRange s.exmem.aluResult then none else some (.storeOutOfRange s.exmem.aluResult)
  | .unimplemented => if s.config.jalrFaults then some (.jalrUnimplemented s.exmem.instr) else none
  | .unrecognized => if s.config.unrecognizedOpcodeFaults then some (.unrecognizedOpcode s.exmem.instr) else none
  | .pass => none
  | .branch => none

/-- Execute for the word in `IDEX`; a load there first stalls a word in `IFID` that names its destination
(R147, R148, R149). -/
def executeWork (c : Control) (s s' : State) : State :=
  if decide (c.mem = .load) && namesLoadDest s.ifid.instr s.idex.instr then
    executeStage c.alu s (stallStage s s')
  else executeStage c.alu s s'

/-- Memory for the word in `EXMEM`, and the branch resolution (R156 to R160). -/
def memoryWork (m : MemOp) (s s' : State) : State :=
  match m with
  | .load => loadStage s s'
  | .store => storeStage s s'
  | .branch => if s.exmem.eq then squashStage s (passStage s s') else passStage s s'
  | .pass => passStage s s'
  | .unimplemented => passStage s s'
  | .unrecognized => passStage s s'

/-- The part of a cycle that is done for one instruction: each of the five stages works if the word it
works on is that instruction (`holds`), in R142's order; everything else stays as in `s` (R142, R200). -/
def stageWork (holds : Word → Bool) (c : Control) (s : State) : State :=
  let s1 := if s.fetchable && holds s.fetchWord then fetchStage s s else s
  let s2 := if holds s.ifid.instr then decodeStage s s1 else s1
  let s3 := if holds s.idex.instr then executeWork c s s2 else s2
  let s4 := if holds s.exmem.instr then memoryWork c.mem s s3 else s3
  if holds s.memwb.instr then writebackStage c.dest s s4 else s4

/-- The fault one instruction raises in this cycle: only the one in `EXMEM` can (R244). -/
def faultOf (holds : Word → Bool) (c : Control) (s : State) : Option FaultReason :=
  if holds s.exmem.instr then s.memoryFault c.mem else none

/-- What one instruction does in the cycle that starts in `s`: it faults and nothing else happens (R245),
or the stages that hold it do their work (R200). -/
def runStages (holds : Word → Bool) (c : Control) (s : State) : Host.Outcome State Fault Refusal :=
  match faultOf holds c s with
  | some reason => .next (s.raise reason)
  | none => .next (stageWork holds c s)

end Sys2Proof.Machine
end

