-- ==== Sys2Proof/Machine/Arithmetic.lean ====
section
/-! DEFINITION. `add` and `nor` (spec/42_instructions.md R201, R202). -/

namespace Sys2Proof.Machine

/-- `add rA, rB, rD` (R201): Execute computes `a + b`, Memory passes it, Writeback writes `reg[fieldC[2:0]]`. -/
def execAdd (a b : RegIdx) (c : Half) (s : State) : Host.Outcome State Fault Refusal :=
  runStages (Instr.isWord (.add a b c)) { alu := .add, mem := .pass, dest := some (destIndex c) } s

/-- `nor rA, rB, rD` (R202): as `add`, with `~(a | b)`. -/
def execNor (a b : RegIdx) (c : Half) (s : State) : Host.Outcome State Fault Refusal :=
  runStages (Instr.isWord (.nor a b c)) { alu := .nor, mem := .pass, dest := some (destIndex c) } s

end Sys2Proof.Machine
end

