-- ==== Sys2Proof/Machine/Control.lean ====
section
/-! DEFINITION. `beq` and `jalr` (spec/42_instructions.md R205, R206, R210). -/

namespace Sys2Proof.Machine

/-- `beq rA, rB, off` (R205): Execute computes the target and the comparison, Memory redirects `pc` and
squashes three words when they were equal, Writeback writes no register. -/
def execBeq (a b : RegIdx) (off : Int) (s : State) : Host.Outcome State Fault Refusal :=
  runStages (Instr.isWord (.beq a b off)) { alu := .target, mem := .branch, dest := none } s

/-- `jalr rA, rB` (R206): inert in every stage in this version, or the fault of D9 when `jalrFaults`. -/
def execJalr (a b : RegIdx) (c : Half) (s : State) : Host.Outcome State Fault Refusal :=
  runStages (Instr.isWord (.jalr a b c)) { alu := .zero, mem := .unimplemented, dest := none } s

end Sys2Proof.Machine
end

