-- ==== Sys2Proof/Machine/Inert.lean ====
section
/-! DEFINITION. `halt`, `noop` and the words that are no instruction (spec/42_instructions.md R207 to R209):
inert in every stage. -/

namespace Sys2Proof.Machine

/-- `halt` (R207, R171): it writes nothing and redirects nothing; the run ends when it enters `WBEND` (R275). -/
def execHalt (a b : RegIdx) (c : Half) (s : State) : Host.Outcome State Fault Refusal :=
  runStages (Instr.isWord (.halt a b c)) { alu := .zero, mem := .pass, dest := none } s

/-- `noop` (R208). -/
def execNoop (a b : RegIdx) (c : Half) (s : State) : Host.Outcome State Fault Refusal :=
  runStages (Instr.isWord (.noop a b c)) { alu := .zero, mem := .pass, dest := none } s

/-- A word the decoder refuses (R101, R209, D8): inert, or the fault of D8 when `unrecognizedOpcodeFaults`. -/
def execUnrecognized (w : Word) (s : State) : Host.Outcome State Fault Refusal :=
  runStages (fun v => decide (v = w)) { alu := .zero, mem := .unrecognized, dest := none } s

end Sys2Proof.Machine
end

