-- ==== Sys2Proof/Machine/LoadStore.lean ====
section
/-! DEFINITION. `lw` and `sw` (spec/42_instructions.md R203, R204, R211). -/

namespace Sys2Proof.Machine

/-- `lw rA, rB, off` (R203): Execute computes the address, Memory loads or faults, Writeback writes
`reg[fieldB]`; in `IDEX` it stalls a next word that names `rB`. -/
def execLw (a b : RegIdx) (off : Int) (s : State) : Host.Outcome State Fault Refusal :=
  runStages (Instr.isWord (.lw a b off)) { alu := .address, mem := .load, dest := some b } s

/-- `sw rA, rB, off` (R204): Execute computes the address and carries the data, Memory stores or faults,
Writeback writes no register. -/
def execSw (a b : RegIdx) (off : Int) (s : State) : Host.Outcome State Fault Refusal :=
  runStages (Instr.isWord (.sw a b off)) { alu := .address, mem := .store, dest := none } s

end Sys2Proof.Machine
end

