-- ==== Sys2Proof/Machine/Dispatch.lean ====
section
/-! DEFINITION. One arm per instruction: `exec i s` is what the block does for the instruction `i` in the
cycle that starts in `s`, at each stage whose word is `i` (spec/42_instructions.md R200). -/

namespace Sys2Proof.Machine

def exec (i : Instr) (s : State) : Host.Outcome State Fault Refusal :=
  match i with
  | .add a b c => Sys2Proof.Machine.execAdd a b c s
  | .nor a b c => Sys2Proof.Machine.execNor a b c s
  | .lw a b off => Sys2Proof.Machine.execLw a b off s
  | .sw a b off => Sys2Proof.Machine.execSw a b off s
  | .beq a b off => Sys2Proof.Machine.execBeq a b off s
  | .jalr a b c => Sys2Proof.Machine.execJalr a b c s
  | .halt a b c => Sys2Proof.Machine.execHalt a b c s
  | .noop a b c => Sys2Proof.Machine.execNoop a b c s

end Sys2Proof.Machine
end

