-- ==== Sys2Proof/Machine/Cycle.lean ====
section
/-! DEFINITION. One whole cycle, put together from what it does for the five words in flight
(spec/41_pipeline.md R140, R142, R172). -/

namespace Sys2Proof.Machine

/-- The meaning of a word in flight: its instruction's, or an unrecognised word's (R200, R209). -/
def runWord (w : Word) (s : State) : Host.Outcome State Fault Refusal :=
  match decode w with
  | .ok i => exec i s
  | .error _ => execUnrecognized w s

/-- Go on with the state of a next outcome. -/
def andThen (o : Host.Outcome State Fault Refusal)
    (k : State → Host.Outcome State Fault Refusal) : Host.Outcome State Fault Refusal :=
  match o with
  | .next s => k s
  | .fault r => .fault r
  | .refused r => .refused r

/-- Each field of the next snapshot from the stage that writes it (R172): `f`, `d`, `x`, `m`, `w` are the
outcomes for the words in Fetch, Decode, Execute, Memory and Writeback; `cycles` counts (R166). -/
def gather (s f d x m w : State) : State :=
  { s with
    pc := f.pc
    ifid := f.ifid
    idex := d.idex
    exmem := x.exmem
    memwb := m.memwb
    dmem := m.dmem
    reg := w.reg
    wbend := w.wbend
    cycles := s.cycles + 1 }

/-- What the load in Execute overrides when it stalls (R148, R172). -/
def overrideStall (x s' : State) : State :=
  { s' with
    pc := x.pc
    ifid := x.ifid
    idex := { s'.idex with instr := x.idex.instr } }

/-- What the branch in Memory overrides when it is taken (R160, R172). -/
def overrideSquash (m s' : State) : State :=
  { s' with
    pc := m.pc
    ifid := { s'.ifid with instr := m.ifid.instr }
    idex := { s'.idex with instr := m.idex.instr }
    exmem := { s'.exmem with instr := m.exmem.instr } }

/-- The next snapshot: the stages' parts, then the stall, then the squash, which wins (R142, R161). -/
def commit (s f d x m w : State) : State :=
  let s1 := gather s f d x m w
  let s2 := if s.loadUse then overrideStall x s1 else s1
  if s.branchTaken then overrideSquash m s2 else s2

/-- One cycle. The word in `EXMEM` is asked first, since its fault comes first (R246); then the fetch
check (R144); else the five words' outcomes are committed together. -/
def cycle (s : State) : Host.Outcome State Fault Refusal :=
  andThen (runWord s.exmem.instr s) fun m =>
    if m.fault.isSome then .next m
    else if s.fetchable then
      andThen (runWord s.fetchWord s) fun f =>
      andThen (runWord s.ifid.instr s) fun d =>
      andThen (runWord s.idex.instr s) fun x =>
      andThen (runWord s.memwb.instr s) fun w =>
      .next (commit s f d x m w)
    else .next (s.raise (.fetchOutOfRange s.pc))

/-- One step where a step exists (R141): none from a faulted state, none from a final state. -/
def stepOf (s : State) : Host.Outcome State Fault Refusal :=
  match s.fault with
  | some reason => .fault (.stuck reason)
  | none => if s.haltRetired then .fault .runEnded else cycle s

/-- Put a word where Fetch reads next. -/
def State.placeAtPc (s : State) (w : Word) : State :=
  { s with imem := s.imem.write (addressOf s.pc) w }

end Sys2Proof.Machine
end

