-- ==== Sys2Proof/Machine/Step.lean ====
section
/-! DEFINITION. The step function: one cycle of the block (spec/41_pipeline.md R140 to R142). -/

namespace Sys2Proof.Machine

/-- `step(S)`: one cycle (R142), where one exists (R141). -/
def step (s : State) : Host.Outcome State Fault Refusal := stepOf s

/-- The state with one instruction word where the next step fetches: in instruction memory at `pc`
(R65, R143). Nothing else changes (notes/assumptions/6.md). -/
def State.withFetchWord (s : State) (nbits w : Nat) : State :=
  s.placeAtPc (BitVec.ofNat 32 (w % 2 ^ nbits))

end Sys2Proof.Machine
end

