-- ==== Sys2Proof/Machine/Reference.lean ====
section
/-! DEFINITION. The pseudocode of spec/41_pipeline.md R142, line by line, on opcode numbers and fields: a
second description of a cycle, written without the decoder, `exec` or the stage operations, for the
statement that the machine's step is this function. The machine never calls it. -/

namespace Sys2Proof.Machine

/-- `opcode` is one of `0..7` (R93). -/
def opcodeRecognized (n : Int) : Bool := decide (0 ≤ n) && decide (n ≤ 7)

/-- A writer, by opcode number: `ADD`, `NOR` or `LOAD` (R150). -/
def writerByNumber (n : Int) : Bool := decide (n = 0) || decide (n = 1) || decide (n = 2)

/-- `dest(w)` of a writer, by opcode number (R151). -/
def destByNumber (w : Word) : RegIdx := if opcode w = 2 then fieldB w else w.extractLsb' 0 3

/-- The resolver's loop over (latch word, value) pairs, each match overwriting (R152). -/
def forwardLoop (latches : List (Word × Word)) (i : RegIdx) (v : Word) : Word :=
  latches.foldl (fun acc p => if writerByNumber (opcode p.1) && decide (destByNumber p.1 = i) then p.2 else acc) v

/-- `alu` by opcode number (R120 to R125). -/
def aluByNumber (op : Int) (a b offset pcPlus1 : Word) : Word :=
  if op = 0 then a + b
  else if op = 1 then ~~~(a ||| b)
  else if op = 2 ∨ op = 3 then a + offset
  else if op = 4 then offset + pcPlus1
  else 0#32

/-- The first fault that applies, in R142's order (R246). -/
def faultByNumber (s : State) : Option FaultReason :=
  let m := s.exmem.instr
  if s.config.unrecognizedOpcodeFaults = true ∧ opcodeRecognized (opcode m) = false then some (.unrecognizedOpcode m)
  else if s.config.jalrFaults = true ∧ opcode m = 5 then some (.jalrUnimplemented m)
  else if opcode m = 2 ∧ s.inRange s.exmem.aluResult = false then some (.loadOutOfRange s.exmem.aluResult)
  else if opcode m = 3 ∧ s.inRange s.exmem.aluResult = false then some (.storeOutOfRange s.exmem.aluResult)
  else if s.inRange s.pc = false then some (.fetchOutOfRange s.pc)
  else none

/-- The latches the resolver loops over, with the value each forwards, furthest first (R152, R153). -/
def latchesOf (s : State) : List (Word × Word) :=
  [(s.wbend.instr, s.wbend.writeData), (s.memwb.instr, s.memwb.writeData), (s.exmem.instr, s.exmem.aluResult)]

/-- `(a, b) = forward(S, …)`, the first operand. -/
def forwardedA (s : State) : Word := forwardLoop (latchesOf s) (fieldA s.idex.instr) s.idex.readRegA

/-- `(a, b) = forward(S, …)`, the second operand. -/
def forwardedB (s : State) : Word := forwardLoop (latchesOf s) (fieldB s.idex.instr) s.idex.readRegB

/-- R142, "Fetch". -/
def refFetch (s s' : State) : State :=
  { s' with ifid := ⟨s.imem.read s.pc.toNat, s.pc + 1#32⟩, pc := s.pc + 1#32 }

/-- R142, "Decode". -/
def refDecode (s s' : State) : State :=
  { s' with
    idex := ⟨s.ifid.instr, s.ifid.pcPlus1, s.reg.read (fieldA s.ifid.instr), s.reg.read (fieldB s.ifid.instr),
      imm s.ifid.instr⟩ }

/-- R142, "Hazard detector and stall". -/
def refStall (s s' : State) : State :=
  if opcode s.idex.instr = 2 ∧
      (fieldA s.ifid.instr = fieldB s.idex.instr ∨ fieldB s.ifid.instr = fieldB s.idex.instr) then
    { s' with pc := s.pc, ifid := s.ifid, idex := { s'.idex with instr := 0x01C00000#32 } }
  else s'

/-- R142, "Execute". -/
def refExecute (s s' : State) : State :=
  { s' with
    exmem :=
      ⟨s.idex.instr, s.idex.offset + s.idex.pcPlus1, decide (forwardedA s = forwardedB s),
        aluByNumber (opcode s.idex.instr) (forwardedA s) (forwardedB s) s.idex.offset s.idex.pcPlus1,
        forwardedB s⟩ }

/-- R142, "Memory", the two assignments to `MEMWB`. -/
def refMemory (s s' : State) : State :=
  { s' with
    memwb := ⟨s.exmem.instr,
      if opcode s.exmem.instr = 2 then s.dmem.read s.exmem.aluResult.toNat else s.exmem.aluResult⟩ }

/-- R142, "Memory", the store. -/
def refStore (s s' : State) : State :=
  if opcode s.exmem.instr = 3 then
    { s' with dmem := s.dmem.write s.exmem.aluResult.toNat s.exmem.readRegB }
  else s'

/-- R142, "Branch resolution and squash". -/
def refSquash (s s' : State) : State :=
  if opcode s.exmem.instr = 4 ∧ s.exmem.eq = true then
    { s' with
      pc := s.exmem.branchTarget
      ifid := { s'.ifid with instr := 0x01C00000#32 }
      idex := { s'.idex with instr := 0x01C00000#32 }
      exmem := { s'.exmem with instr := 0x01C00000#32 } }
  else s'

/-- R142, "Writeback", the two register writes. -/
def refWriteback (s s' : State) : State :=
  if opcode s.memwb.instr = 2 then
    { s' with reg := s.reg.write (fieldB s.memwb.instr) s.memwb.writeData }
  else if opcode s.memwb.instr = 0 ∨ opcode s.memwb.instr = 1 then
    { s' with reg := s.reg.write (s.memwb.instr.extractLsb' 0 3) s.memwb.writeData }
  else s'

/-- R142, `S'.WBEND <- S.MEMWB` and the counter. -/
def refRetire (s s' : State) : State :=
  { s' with wbend := ⟨s.memwb.instr, s.memwb.writeData⟩, cycles := s.cycles + 1 }

/-- The committed next snapshot of R142: `S' = S`, then each line in its order. -/
def snapshotByNumber (s : State) : State :=
  refRetire s (refWriteback s (refSquash s (refStore s (refMemory s (refExecute s (refStall s
    (refDecode s (refFetch s s))))))))

/-- `step(S)` of R142, for the states R141 allows: the fault outcome of R245, or the commit. -/
def referenceStep (s : State) : State :=
  match faultByNumber s with
  | some reason => { s with fault := some reason }
  | none => snapshotByNumber s

end Sys2Proof.Machine
end

