-- ==== Sys2Proof/Machine/Sequential.lean ====
section
/-! DEFINITION. `SEQ` of spec/70_reset_and_hazards.md R281: the machine that executes the words at `pc` one
at a time with the "Architectural effect" of spec/42_instructions.md R201 to R209. The block never calls it;
it is what the statement about the sequential reading compares the block with. -/

namespace Sys2Proof.Machine

/-- What `SEQ` holds: no latches, no cycles. -/
structure Seq where
  config : Config
  imem : Memory
  pc : Word
  reg : RegFile
  dmem : Memory
deriving DecidableEq, Repr

/-- `0 <= n < MEM_SIZE`, `n` read as signed (R61). -/
def Seq.inRange (q : Seq) (n : Word) : Bool :=
  decide (0 ≤ n.toInt) && decide (n.toInt < (q.config.memSize : Int))

/-- The word at an address of instruction memory. -/
def Seq.wordAt (q : Seq) (a : Word) : Word := q.imem.read (addressOf a)

/-- `SEQ` before its first instruction: `pc = 0`, the reset registers, `DMEM0` (R281). -/
def Seq.start (config : Config) (imem0 dmem0 : Memory) : Seq :=
  { config := config, imem := imem0, pc := 0#32, reg := Vector.replicate 8 0#32, dmem := dmem0 }

/-- The effective address of a load or store word: `x[fieldA] + imm` (R211). -/
def Seq.address (q : Seq) (w : Word) : Word := q.reg.read (fieldA w) + imm w

/-- On to the next word. -/
def Seq.advance (q : Seq) : Seq := { q with pc := q.pc + 1#32 }

/-- The architectural effect of one word (R201 to R209): the state after it, `none` where an access is out
of range (R203, R204). -/
def Seq.effect (q : Seq) (w : Word) : Option Seq :=
  match opOf w with
  | some .add =>
    some { q.advance with reg := q.reg.write (destIndex (fieldC w)) (q.reg.read (fieldA w) + q.reg.read (fieldB w)) }
  | some .nor =>
    some { q.advance with reg := q.reg.write (destIndex (fieldC w)) (~~~(q.reg.read (fieldA w) ||| q.reg.read (fieldB w))) }
  | some .lw =>
    if q.inRange (q.address w) then
      some { q.advance with reg := q.reg.write (fieldB w) (q.dmem.read (addressOf (q.address w))) }
    else none
  | some .sw =>
    if q.inRange (q.address w) then
      some { q.advance with dmem := q.dmem.write (addressOf (q.address w)) (q.reg.read (fieldB w)) }
    else none
  | some .beq =>
    if q.reg.read (fieldA w) = q.reg.read (fieldB w) then some { q with pc := q.pc + 1#32 + imm w }
    else some q.advance
  | some .jalr => some q.advance
  | some .halt => some q.advance
  | some .noop => some q.advance
  | none => some q.advance

/-- `SEQ` stands at a `halt` it can fetch, the last word it executes (R281). -/
def Seq.atHalt (q : Seq) : Bool := q.inRange q.pc && decide (opOf (q.wordAt q.pc) = some .halt)

/-- One instruction of `SEQ`: none out of range, none after a `halt`. -/
def Seq.next (q : Seq) : Option Seq :=
  if q.inRange q.pc && !q.atHalt then q.effect (q.wordAt q.pc) else none

/-- `n` instructions of `SEQ`. -/
def Seq.run : Nat → Seq → Option Seq
  | 0, q => some q
  | n + 1, q => (q.next).bind (Seq.run n)

/-- The data memory after the Memory stage of the word at `h + 1`, `SEQ` standing at the `halt` at `h` (R279). -/
def Seq.dmemAfterHalt (q : Seq) : Memory :=
  let w := q.wordAt (q.pc + 1#32)
  if opOf w = some .sw then q.dmem.write (addressOf (q.address w)) (q.reg.read (fieldB w)) else q.dmem

end Sys2Proof.Machine
end

