-- ==== Sys2Proof/Machine/Ports.lean ====
section
/-! DEFINITION. The hardware interface of spec/41_pipeline.md R173: what `clk` and `rst` do and what each
port carries, as functions of the state. It adds no behaviour to the step. -/

namespace Sys2Proof.Machine

/-- `imem_addr` (out). -/
def State.imemAddr (s : State) : Word := s.pc

/-- `dmem_addr` (out). -/
def State.dmemAddr (s : State) : Word := s.exmem.aluResult

/-- `dmem_re` (out). -/
def State.dmemRe (s : State) : Bool := decide (opOf s.exmem.instr = some .lw)

/-- `dmem_we` (out). -/
def State.dmemWe (s : State) : Bool := decide (opOf s.exmem.instr = some .sw)

/-- `dmem_wdata` (out). -/
def State.dmemWdata (s : State) : Word := s.exmem.readRegB

/-- `halted` (out). -/
def State.halted (s : State) : Bool := s.haltRetired

/-- One rising edge of `clk`: one step is committed; a halted or faulted block ignores it (R141, R173, R254). -/
def State.clockEdge (s : State) : State :=
  match step s with
  | .next t => t
  | .fault _ => s
  | .refused _ => s

/-- `rst` asserted: the state of R42 with the memories loaded from `IMEM0` and `DMEM0`. -/
def State.assertReset (s : State) (imem0 dmem0 : Memory) : State := State.resetWith s.config imem0 dmem0

end Sys2Proof.Machine
end

