-- ==== Sys2Proof/Safety.lean ====
section
/-! DEFINITION. What a run is, when it is finished, and the invariants claims use
(spec/70_reset_and_hazards.md R274, R275; spec/60_exceptions.md R245). -/

namespace Sys2Proof.Machine

/-- `k` cycles from `s` lead to `t`, each of them a step (R275). -/
def runsTo (k : Nat) (s t : State) : Prop := Sys2Proof.core.run k s = .next t

/-- The run from `s` ends normally in `t`: `t` is its first final state, since a final state has no step (R275). -/
def finishesIn (s t : State) : Prop := t.isFinal = true ∧ ∃ k, runsTo k s t

/-- A cycle from `s` commits `t`: a step that raises no fault (R166, R245). -/
def commits (s t : State) : Prop := step s = .next t ∧ t.fault = none

/-- The parameters and the two memories are what the spec allows: `MEM_SIZE` in its range (D2), each memory
in canonical form with addresses below `MEM_SIZE` (R28, R29). -/
def State.memoriesOk (s : State) : Bool :=
  s.config.valid && s.imem.wf && s.dmem.wf && s.imem.within s.config.memSize && s.dmem.within s.config.memSize

/-- A word in `IDEX` right behind a load in `EXMEM` does not name the load's destination, unless it is the
bubble: so the address such a load forwards (R155) reaches no operand of an instruction. -/
def State.noAddressForwarded (s : State) : Bool :=
  if opOf s.exmem.instr = some .lw then
    decide (s.idex.instr = noopWord) || !namesLoadDest s.idex.instr s.exmem.instr
  else true

/-- What a latch's word fixes in the latch's other fields, unless the word is a `noop` (R31, R32, R125,
R127): `IDEX` holds the sign-extended offset, a `beq` in `EXMEM` carries its target as its ALU result, and
the other inert words carry 0. -/
def State.latchesAgree (s : State) : Bool :=
  (decide (opOf s.idex.instr = some .noop) || decide (s.idex.offset = imm s.idex.instr)) &&
  (decide (opOf s.exmem.instr ≠ some .beq) || decide (s.exmem.aluResult = s.exmem.branchTarget)) &&
  (!(decide (opOf s.exmem.instr = some .jalr) || decide (opOf s.exmem.instr = some .halt) ||
     decide (opOf s.exmem.instr = none)) || decide (s.exmem.aluResult = 0#32))

/-- Two latches' fields agree, or both latches hold the same `noop` (R35). -/
def agreeOrNoop (w v : Word) (fieldsAgree : Bool) : Bool :=
  decide (w = v) && (decide (opOf w = some .noop) || fieldsAgree)

/-- Two states that differ at most in the auxiliary fields of latches that hold a `noop` (R35, R167). -/
def State.sameButBubbles (s t : State) : Bool :=
  decide (s.config = t.config) && decide (s.pc = t.pc) && decide (s.imem = t.imem) && decide (s.dmem = t.dmem) &&
  decide (s.reg = t.reg) && decide (s.cycles = t.cycles) && decide (s.fault = t.fault) &&
  agreeOrNoop s.ifid.instr t.ifid.instr (decide (s.ifid = t.ifid)) &&
  agreeOrNoop s.idex.instr t.idex.instr (decide (s.idex = t.idex)) &&
  agreeOrNoop s.exmem.instr t.exmem.instr (decide (s.exmem = t.exmem)) &&
  agreeOrNoop s.memwb.instr t.memwb.instr (decide (s.memwb = t.memwb)) &&
  agreeOrNoop s.wbend.instr t.wbend.instr (decide (s.wbend = t.wbend))

end Sys2Proof.Machine
end

