-- ==== Sys2Proof/Certificates/Slice0/Obligations.lean ====
section
/-! DEFINITION. The statements about the model, one `Prop` each. `exec i s` is what the block does for the
instruction `i` in the cycle that starts in `s`, at each stage whose word is `i`; a `step` is the cycle put
together from the words in flight. -/

open Sys2Proof Sys2Proof.Machine

/-! ## Encoding -/

/-- R100: the four fields of an encoded word are read back, a signed offset too, and bits `[31:25]` are 0. -/
def Obligations.EncodedFieldsAreReadBack : Prop :=
  ∀ (op : Nat) (a b : RegIdx) (c : Half), op < 8 →
    opcode (encodeFields op a b c) = (op : Int) ∧
    fieldA (encodeFields op a b c) = a ∧
    fieldB (encodeFields op a b c) = b ∧
    fieldC (encodeFields op a b c) = c ∧
    (encodeFields op a b c).extractLsb' 25 7 = 0#7 ∧
    ∀ off : Int, -32768 ≤ off → off ≤ 32767 →
      (fieldC (encodeFields op a b (offsetBits off))).toInt = off ∧
      (imm (encodeFields op a b (offsetBits off))).toInt = off

/-- R100, R97: decoding an encoded well-formed instruction gives it back, whatever its operands. -/
def Obligations.DecodeOfEncodeIsTheInstruction : Prop :=
  ∀ i : Instr, i.wellFormed = true → decode (encode i) = .ok i

/-- R91, R107: a word the decoder accepts is the encoding of its instruction, bit for bit, and that
instruction is well formed. -/
def Obligations.EncodeOfDecodeIsTheWord : Prop :=
  ∀ (w : Word) (i : Instr), decode w = .ok i → encode i = w ∧ i.wellFormed = true

/-- R93, R101: the opcode is `[31:22]` sign-extended, and only an opcode in `0..7`, a word with no bit of `[31:25]` set,
names an instruction. That `decode` refuses the other words is the model's (log entry 8): R107 gives decoding no error
conditions, and the step passes such a word on as R209 says. -/
def Obligations.DecoderRefusesExactlyUnrecognizedWords : Prop :=
  ∀ w : Word,
    opcode w = (if (w.extractLsb' 22 10).toNat < 512 then ((w.extractLsb' 22 10).toNat : Int)
      else ((w.extractLsb' 22 10).toNat : Int) - 1024) ∧
    -512 ≤ opcode w ∧ opcode w ≤ 511 ∧
    (w.getLsbD 31 = true ↔ opcode w < 0) ∧
    ((∃ i, decode w = .ok i) ↔ 0 ≤ opcode w ∧ opcode w ≤ 7) ∧
    (decode w = .error (.unrecognizedOpcode w) ↔ w.extractLsb' 25 7 ≠ 0#7)

/-- Words written out from R91 and R92: opcode, field A, field B, field C. The eight opcode numbers are the spec's
decision D1; the refusal of the ninth word, unrecognised by R101, is the model's (log entry 8). -/
def Obligations.WrittenOutWordsDecode : Prop :=
  decode 0b0000000000_001_010_0000000000000011#32 = .ok (.add 1#3 2#3 3#16) ∧
  decode 0b0000000001_000_000_0000000000000001#32 = .ok (.nor 0#3 0#3 1#16) ∧
  decode 0b0000000010_000_001_0000000000001010#32 = .ok (.lw 0#3 1#3 10) ∧
  decode 0b0000000011_000_010_0000000000001100#32 = .ok (.sw 0#3 2#3 12) ∧
  decode 0b0000000100_000_000_1111111111111100#32 = .ok (.beq 0#3 0#3 (-4)) ∧
  decode 0b0000000101_001_010_0000000000000000#32 = .ok (.jalr 1#3 2#3 0#16) ∧
  decode 0b0000000110_000_000_0000000000000000#32 = .ok (.halt 0#3 0#3 0#16) ∧
  decode 0b0000000111_000_000_0000000000000000#32 = .ok (.noop 0#3 0#3 0#16) ∧
  decode 0b0000001000_000_000_0000000000000000#32 = .error (.unrecognizedOpcode 0x02000000#32)

/-- R96: `imm` is `fieldC` sign-extended, and Decode stores it in `IDEX.offset` for every word. -/
def Obligations.ImmediateIsSignExtendedAndLatched : Prop :=
  (∀ w : Word,
    (imm w).toInt = (if (fieldC w).toNat < 32768 then ((fieldC w).toNat : Int) else ((fieldC w).toNat : Int) - 65536) ∧
    -32768 ≤ (imm w).toInt ∧ (imm w).toInt ≤ 32767) ∧
  ∀ s t : State, commits s t → t.idex.offset = imm s.ifid.instr

/-! ## The meaning of each instruction, stage by stage -/

/-- R121, R149, R158, R163, R165: an `add` in `IDEX` computes the sum of the forwarded operands, in `EXMEM` it
passes its result and touches no memory, in `MEMWB` it writes `reg[fieldC[2:0]]` and retires. -/
def Obligations.AddRunsInExecuteMemoryAndWriteback : Prop :=
  ∀ (a b : RegIdx) (c : Half) (s : State), ∃ t, exec (.add a b c) s = .next t ∧
    (decode s.idex.instr = .ok (.add a b c) →
      t.exmem = ⟨s.idex.instr, s.idex.offset + s.idex.pcPlus1, decide (s.operandA = s.operandB),
        s.operandA + s.operandB, s.operandB⟩) ∧
    (decode s.exmem.instr = .ok (.add a b c) →
      t.memwb = ⟨s.exmem.instr, s.exmem.aluResult⟩ ∧ t.dmem = s.dmem) ∧
    (decode s.memwb.instr = .ok (.add a b c) →
      t.reg = s.reg.write (c.extractLsb' 0 3) s.memwb.writeData ∧
      t.wbend = ⟨s.memwb.instr, s.memwb.writeData⟩)

/-- R122, R149, R158, R163, R165: as `add`, with `~(a | b)`. -/
def Obligations.NorRunsInExecuteMemoryAndWriteback : Prop :=
  ∀ (a b : RegIdx) (c : Half) (s : State), ∃ t, exec (.nor a b c) s = .next t ∧
    (decode s.idex.instr = .ok (.nor a b c) →
      t.exmem = ⟨s.idex.instr, s.idex.offset + s.idex.pcPlus1, decide (s.operandA = s.operandB),
        ~~~(s.operandA ||| s.operandB), s.operandB⟩) ∧
    (decode s.exmem.instr = .ok (.nor a b c) →
      t.memwb = ⟨s.exmem.instr, s.exmem.aluResult⟩ ∧ t.dmem = s.dmem) ∧
    (decode s.memwb.instr = .ok (.nor a b c) →
      t.reg = s.reg.write (c.extractLsb' 0 3) s.memwb.writeData ∧
      t.wbend = ⟨s.memwb.instr, s.memwb.writeData⟩)

/-- R123, R148, R156, R162, R165: a `lw` in `IDEX` computes its address, and holds a word in `IFID` that names its
destination; in `EXMEM`, in range, it loads; in `MEMWB` it writes `reg[fieldB]` and retires. -/
def Obligations.LwRunsInExecuteMemoryAndWriteback : Prop :=
  ∀ (a b : RegIdx) (off : Int) (s : State),
    (decode s.exmem.instr = .ok (.lw a b off) → s.inRange s.exmem.aluResult = true) →
    ∃ t, exec (.lw a b off) s = .next t ∧
    (decode s.idex.instr = .ok (.lw a b off) →
      t.exmem = ⟨s.idex.instr, s.idex.offset + s.idex.pcPlus1, decide (s.operandA = s.operandB),
        s.operandA + s.idex.offset, s.operandB⟩ ∧
      (fieldA s.ifid.instr = b ∨ fieldB s.ifid.instr = b →
        t.pc = s.pc ∧ t.ifid = s.ifid ∧ t.idex.instr = 0x01C00000#32)) ∧
    (decode s.exmem.instr = .ok (.lw a b off) →
      t.memwb = ⟨s.exmem.instr, s.dmem.read s.exmem.aluResult.toNat⟩ ∧ t.dmem = s.dmem) ∧
    (decode s.memwb.instr = .ok (.lw a b off) →
      t.reg = s.reg.write b s.memwb.writeData ∧ t.wbend = ⟨s.memwb.instr, s.memwb.writeData⟩)

/-- R123, R157, R158, R164, R165: a `sw` in `IDEX` computes its address and carries the forwarded data; in `EXMEM`,
in range, it writes that one word; in `MEMWB` it writes no register and retires. -/
def Obligations.SwRunsInExecuteMemoryAndWriteback : Prop :=
  ∀ (a b : RegIdx) (off : Int) (s : State),
    (decode s.exmem.instr = .ok (.sw a b off) → s.inRange s.exmem.aluResult = true) → s.dmem.wf = true →
    ∃ t, exec (.sw a b off) s = .next t ∧
    (decode s.idex.instr = .ok (.sw a b off) →
      t.exmem = ⟨s.idex.instr, s.idex.offset + s.idex.pcPlus1, decide (s.operandA = s.operandB),
        s.operandA + s.idex.offset, s.operandB⟩) ∧
    (decode s.exmem.instr = .ok (.sw a b off) →
      t.memwb = ⟨s.exmem.instr, s.exmem.aluResult⟩ ∧
      t.dmem.read s.exmem.aluResult.toNat = s.exmem.readRegB ∧
      ∀ addr : Nat, addr ≠ s.exmem.aluResult.toNat → t.dmem.read addr = s.dmem.read addr) ∧
    (decode s.memwb.instr = .ok (.sw a b off) →
      t.reg = s.reg ∧ t.wbend = ⟨s.memwb.instr, s.memwb.writeData⟩)

/-- R124, R126, R159, R160, R168: a `beq` in `IDEX` computes its target and the comparison; in `EXMEM` it redirects
`pc` and turns three latches of the next snapshot into bubbles if `eq`, else it only moves on; in `MEMWB` it writes
no register and retires. -/
def Obligations.BeqRunsInExecuteMemoryAndWriteback : Prop :=
  ∀ (a b : RegIdx) (off : Int) (s : State), ∃ t, exec (.beq a b off) s = .next t ∧
    (decode s.idex.instr = .ok (.beq a b off) →
      ¬ (decode s.exmem.instr = .ok (.beq a b off) ∧ s.exmem.eq = true) →
      t.exmem = ⟨s.idex.instr, s.idex.offset + s.idex.pcPlus1, decide (s.operandA = s.operandB),
        s.idex.offset + s.idex.pcPlus1, s.operandB⟩) ∧
    (decode s.exmem.instr = .ok (.beq a b off) →
      t.memwb = ⟨s.exmem.instr, s.exmem.aluResult⟩ ∧ t.dmem = s.dmem ∧
      (s.exmem.eq = true →
        t.pc = s.exmem.branchTarget ∧ t.ifid.instr = 0x01C00000#32 ∧ t.idex.instr = 0x01C00000#32 ∧
        t.exmem.instr = 0x01C00000#32) ∧
      (s.exmem.eq = false → decode s.fetchWord ≠ .ok (.beq a b off) → t.pc = s.pc ∧ t.ifid = s.ifid)) ∧
    (decode s.memwb.instr = .ok (.beq a b off) →
      t.reg = s.reg ∧ t.wbend = ⟨s.memwb.instr, s.memwb.writeData⟩)

/-- R125, R158, R164, R206 with `jalrFaults = false`: a `jalr` is inert in every stage; its ALU result is 0 (the
spec's decision D10). -/
def Obligations.JalrRunsInertWhenItDoesNotFault : Prop :=
  ∀ (a b : RegIdx) (c : Half) (s : State),
    (decode s.exmem.instr = .ok (.jalr a b c) → s.config.jalrFaults = false) →
    ∃ t, exec (.jalr a b c) s = .next t ∧
    (decode s.idex.instr = .ok (.jalr a b c) →
      t.exmem = ⟨s.idex.instr, s.idex.offset + s.idex.pcPlus1, decide (s.operandA = s.operandB), 0#32, s.operandB⟩) ∧
    (decode s.exmem.instr = .ok (.jalr a b c) →
      t.memwb = ⟨s.exmem.instr, s.exmem.aluResult⟩ ∧ t.dmem = s.dmem) ∧
    (decode s.memwb.instr = .ok (.jalr a b c) →
      t.reg = s.reg ∧ t.wbend = ⟨s.memwb.instr, s.memwb.writeData⟩)

/-- R125, R158, R164, R165, R171: `halt` and `noop` are inert in every stage; a `halt` in `MEMWB` moves to `WBEND`,
and the state it leaves is final if it holds no fault (R275). ALU result 0 by the spec's decision D10. -/
def Obligations.HaltAndNoopRunInert : Prop :=
  ∀ (a b : RegIdx) (c : Half) (s : State) (i : Instr), i = .halt a b c ∨ i = .noop a b c →
    ∃ t, exec i s = .next t ∧
    (decode s.idex.instr = .ok i →
      t.exmem = ⟨s.idex.instr, s.idex.offset + s.idex.pcPlus1, decide (s.operandA = s.operandB), 0#32, s.operandB⟩) ∧
    (decode s.exmem.instr = .ok i → t.memwb = ⟨s.exmem.instr, s.exmem.aluResult⟩ ∧ t.dmem = s.dmem) ∧
    (decode s.memwb.instr = .ok i →
      t.reg = s.reg ∧ t.wbend = ⟨s.memwb.instr, s.memwb.writeData⟩ ∧
      (i = .halt a b c → s.fault = none → t.isFinal = true))

/-- R101, R209 with `unrecognizedOpcodeFaults = false`: a word that is no instruction is inert in every stage (the
spec's decision D8; ALU result 0 by D10). -/
def Obligations.UnrecognizedWordRunsInert : Prop :=
  ∀ (w : Word) (s : State), (opcode w < 0 ∨ 7 < opcode w) →
    (s.exmem.instr = w → s.config.unrecognizedOpcodeFaults = false) →
    ∃ t, runWord w s = .next t ∧
    (s.idex.instr = w →
      t.exmem = ⟨w, s.idex.offset + s.idex.pcPlus1, decide (s.operandA = s.operandB), 0#32, s.operandB⟩) ∧
    (s.exmem.instr = w → t.memwb = ⟨w, s.exmem.aluResult⟩) ∧
    (s.memwb.instr = w → t.wbend = ⟨w, s.memwb.writeData⟩) ∧
    t.reg = s.reg ∧ t.dmem = s.dmem ∧ t.imem = s.imem ∧ t.fault = s.fault

/-- R143, R145, R200: an instruction at `pc` is fetched and an instruction in `IFID` is decoded by its own meaning,
unless the same instruction stalls from `IDEX`, redirects from `EXMEM` or faults. -/
def Obligations.EveryInstructionIsFetchedAndDecoded : Prop :=
  ∀ (i : Instr) (s : State), s.fault = none →
    (decode s.idex.instr = .ok i → s.loadUse = false) → (decode s.exmem.instr = .ok i → s.branchTaken = false) →
    ∃ t, exec i s = .next t ∧ (t.fault = none →
      (s.inRange s.pc = true → decode s.fetchWord = .ok i →
        t.ifid = ⟨s.imem.read s.pc.toNat, s.pc + 1#32⟩ ∧ t.pc = s.pc + 1#32) ∧
      (decode s.ifid.instr = .ok i →
        t.idex = ⟨s.ifid.instr, s.ifid.pcPlus1, s.reg.read (fieldA s.ifid.instr), s.reg.read (fieldB s.ifid.instr),
          imm s.ifid.instr⟩))

/-- R72, R206, R244, R245: where a meaning faults, for every state: an out-of-range `lw` or `sw` in `EXMEM`, a
`jalr` in `EXMEM` with `jalrFaults`; nothing of the cycle happens but the fault (the spec's decisions D3, D9). -/
def Obligations.LwSwAndJalrFaultInMemory : Prop :=
  ∀ (a b : RegIdx) (off : Int) (c : Half) (s : State),
    (decode s.exmem.instr = .ok (.lw a b off) → s.inRange s.exmem.aluResult = false →
      exec (.lw a b off) s = .next { s with fault := some (.loadOutOfRange s.exmem.aluResult) }) ∧
    (decode s.exmem.instr = .ok (.sw a b off) → s.inRange s.exmem.aluResult = false →
      exec (.sw a b off) s = .next { s with fault := some (.storeOutOfRange s.exmem.aluResult) }) ∧
    (decode s.exmem.instr = .ok (.jalr a b c) → s.config.jalrFaults = true →
      exec (.jalr a b c) s = .next { s with fault := some (.jalrUnimplemented s.exmem.instr) })

/-! ## Frames -/

/-- The frame of the register-writing ALU instructions: every register but `fieldC[2:0]`, every word of both
memories, the flag and its latch unless the instruction is in Execute, `cycles`, `fault` and the parameters. -/
def Obligations.AddAndNorFrame : Prop :=
  ∀ (a b : RegIdx) (c : Half) (i : Instr) (s t : State), i = .add a b c ∨ i = .nor a b c →
    exec i s = .next t →
    t.config = s.config ∧ t.imem = s.imem ∧ t.cycles = s.cycles ∧ t.fault = s.fault ∧
    (∀ addr : Nat, t.dmem.read addr = s.dmem.read addr) ∧
    (∀ r : RegIdx, r ≠ c.extractLsb' 0 3 → t.reg.read r = s.reg.read r) ∧
    (decode s.memwb.instr ≠ .ok i → t.reg = s.reg ∧ t.wbend = s.wbend) ∧
    (decode s.exmem.instr ≠ .ok i → t.memwb = s.memwb) ∧
    (decode s.idex.instr ≠ .ok i → t.exmem = s.exmem ∧ t.exmem.eq = s.exmem.eq) ∧
    (decode s.ifid.instr ≠ .ok i → t.idex = s.idex) ∧
    (decode s.fetchWord ≠ .ok i → t.pc = s.pc ∧ t.ifid = s.ifid)

/-- The frame of `lw`: every register but `fieldB`, every word of both memories, the flag unless it is in Execute;
`fault` changes only for an out-of-range address, and then nothing else does. -/
def Obligations.LwFrame : Prop :=
  ∀ (a b : RegIdx) (off : Int) (s t : State), exec (.lw a b off) s = .next t →
    t.config = s.config ∧ t.imem = s.imem ∧ t.cycles = s.cycles ∧
    (∀ addr : Nat, t.dmem.read addr = s.dmem.read addr) ∧
    (∀ r : RegIdx, r ≠ b → t.reg.read r = s.reg.read r) ∧
    (decode s.memwb.instr ≠ .ok (.lw a b off) → t.reg = s.reg ∧ t.wbend = s.wbend) ∧
    (decode s.exmem.instr ≠ .ok (.lw a b off) → t.memwb = s.memwb ∧ t.fault = s.fault) ∧
    (decode s.idex.instr ≠ .ok (.lw a b off) → t.exmem = s.exmem ∧ t.exmem.eq = s.exmem.eq) ∧
    (decode s.ifid.instr ≠ .ok (.lw a b off) →
      (decode s.idex.instr = .ok (.lw a b off) → s.loadUse = false) → t.idex = s.idex) ∧
    (decode s.fetchWord ≠ .ok (.lw a b off) → t.pc = s.pc ∧ t.ifid = s.ifid) ∧
    (t.fault = s.fault ∨ (s.inRange s.exmem.aluResult = false ∧ t = { s with fault := t.fault }))

/-- The frame of `sw`: every register, instruction memory, and every word of data memory but the one at
`EXMEM.aluResult` when it is in `EXMEM` (all of it otherwise), for a data memory in canonical form. -/
def Obligations.SwFrame : Prop :=
  ∀ (a b : RegIdx) (off : Int) (s t : State), s.dmem.wf = true → exec (.sw a b off) s = .next t →
    t.config = s.config ∧ t.imem = s.imem ∧ t.cycles = s.cycles ∧ t.reg = s.reg ∧
    (∀ addr : Nat, (decode s.exmem.instr = .ok (.sw a b off) → addr ≠ addressOf s.exmem.aluResult) →
      t.dmem.read addr = s.dmem.read addr) ∧
    (decode s.memwb.instr ≠ .ok (.sw a b off) → t.wbend = s.wbend) ∧
    (decode s.exmem.instr ≠ .ok (.sw a b off) → t.memwb = s.memwb ∧ t.fault = s.fault) ∧
    (decode s.idex.instr ≠ .ok (.sw a b off) → t.exmem = s.exmem ∧ t.exmem.eq = s.exmem.eq) ∧
    (decode s.ifid.instr ≠ .ok (.sw a b off) → t.idex = s.idex) ∧
    (decode s.fetchWord ≠ .ok (.sw a b off) → t.pc = s.pc ∧ t.ifid = s.ifid) ∧
    (t.fault = s.fault ∨ (s.inRange s.exmem.aluResult = false ∧ t = { s with fault := t.fault }))

/-- The frame of `beq`, `jalr`, `halt`, `noop`: every register, every word of both memories, the flag unless the
instruction is in Execute, `pc` and the other latches unless it is in their stage or redirects; `fault` changes only
for a `jalr` with `jalrFaults`, and then nothing else does. -/
def Obligations.BeqJalrHaltAndNoopFrame : Prop :=
  ∀ (a b : RegIdx) (off : Int) (c : Half) (i : Instr) (s t : State),
    i = .beq a b off ∨ i = .jalr a b c ∨ i = .halt a b c ∨ i = .noop a b c →
    exec i s = .next t →
    t.config = s.config ∧ t.imem = s.imem ∧ t.cycles = s.cycles ∧ t.reg = s.reg ∧
    (∀ addr : Nat, t.dmem.read addr = s.dmem.read addr) ∧
    (decode s.memwb.instr ≠ .ok i → t.wbend = s.wbend) ∧
    (decode s.exmem.instr ≠ .ok i → t.memwb = s.memwb ∧ t.fault = s.fault) ∧
    (decode s.idex.instr ≠ .ok i → t.exmem.eq = s.exmem.eq ∧ t.exmem.aluResult = s.exmem.aluResult) ∧
    ((i = .beq a b off → decode s.exmem.instr = .ok i → s.exmem.eq = false) →
      (decode s.idex.instr ≠ .ok i → t.exmem = s.exmem) ∧
      (decode s.ifid.instr ≠ .ok i → t.idex = s.idex) ∧
      (decode s.fetchWord ≠ .ok i → t.pc = s.pc ∧ t.ifid = s.ifid)) ∧
    (t.fault = s.fault ∨ (i = .jalr a b c ∧ s.config.jalrFaults = true ∧ t = { s with fault := t.fault }))

/-! ## The step -/

/-- A step runs the decoded instructions in flight. That a step is put together from `exec` of each word, field by
field, is the model's way to give R140, R142 and R172 (log entry 1); the spec has no `exec`. Where the words in the
five stages decode to `f` (at `pc`), `d`, `x`, `m`, `w` and the one in `EXMEM` does not fault, the step is the commit
of what `exec` gives for each: each field from the stage that writes it, `pc`, `IFID` and the bubble from the stalling
load, then the redirect and the three bubbles from the taken branch, and `cycles + 1`. -/
def Obligations.StepRunsTheDecodedInstructionsInFlight : Prop :=
  ∀ (s tm : State) (f d x m w : Instr),
    s.fault = none → opOf s.wbend.instr ≠ some .halt → s.inRange s.pc = true →
    decode s.fetchWord = .ok f → decode s.ifid.instr = .ok d → decode s.idex.instr = .ok x →
    decode s.exmem.instr = .ok m → decode s.memwb.instr = .ok w →
    exec m s = .next tm → tm.fault = none →
    ∃ tf td tx tw : State, exec f s = .next tf ∧ exec d s = .next td ∧ exec x s = .next tx ∧ exec w s = .next tw ∧
      step s = .next
        { config := s.config
          pc := if s.branchTaken then tm.pc else if s.loadUse then tx.pc else tf.pc
          imem := s.imem
          dmem := tm.dmem
          reg := tw.reg
          ifid :=
            { instr := if s.branchTaken then tm.ifid.instr else if s.loadUse then tx.ifid.instr else tf.ifid.instr
              pcPlus1 := if s.loadUse then tx.ifid.pcPlus1 else tf.ifid.pcPlus1 }
          idex := { td.idex with
            instr := if s.branchTaken then tm.idex.instr else if s.loadUse then tx.idex.instr else td.idex.instr }
          exmem := { tx.exmem with instr := if s.branchTaken then tm.exmem.instr else tx.exmem.instr }
          memwb := tm.memwb
          wbend := tw.wbend
          cycles := s.cycles + 1
          fault := none }

/-- R142 whole (with the spec's decisions D3, D8, D9): where R141 gives a step, the machine's step, built from the
decoder and `exec`, is the pseudocode of R142, written on opcode numbers and fields. -/
def Obligations.StepIsThePseudocodeOfTheSpec : Prop :=
  ∀ s : State, s.fault = none → opcode s.wbend.instr ≠ 6 → step s = .next (referenceStep s)

/-- R141 (decision D18): a step exists exactly when no fault is set and no `halt` is in `WBEND`; what the model
answers otherwise, a named fault, is its own choice (log entry 5). -/
def Obligations.StepExistsExactlyWhenRunning : Prop :=
  ∀ s : State,
    ((∃ t, step s = .next t) ↔ s.fault = none ∧ opcode s.wbend.instr ≠ 6) ∧
    (∀ r, s.fault = some r → step s = .fault (.stuck r)) ∧
    (s.fault = none → opcode s.wbend.instr = 6 → step s = .fault .runEnded)

/-- R245 (decision D3): a cycle that raises a fault commits nothing but the fault, and the faulted state has no
step, so the fault is never cleared. That `step` answers the named fault `stuck` there is the model's (log entry 5). -/
def Obligations.FaultingCycleCommitsNothing : Prop :=
  ∀ (s t : State) (r : FaultReason), step s = .next t → t.fault = some r →
    t = { s with fault := some r } ∧ step t = .fault (.stuck r)

/-- R144, R244, R246 (decisions D3, D8, D9): in a state that has a step, which fault a cycle records, in priority
order, and that a cycle none of whose conditions holds commits. -/
def Obligations.FaultsInPriorityOrder : Prop :=
  ∀ s : State, s.fault = none → opcode s.wbend.instr ≠ 6 →
    (s.config.unrecognizedOpcodeFaults = true → (opcode s.exmem.instr < 0 ∨ 7 < opcode s.exmem.instr) →
      step s = .next (s.raise (.unrecognizedOpcode s.exmem.instr))) ∧
    (s.config.jalrFaults = true → opcode s.exmem.instr = 5 →
      step s = .next (s.raise (.jalrUnimplemented s.exmem.instr))) ∧
    (opcode s.exmem.instr = 2 → ¬ (0 ≤ s.exmem.aluResult.toInt ∧ s.exmem.aluResult.toInt < s.config.memSize) →
      step s = .next (s.raise (.loadOutOfRange s.exmem.aluResult))) ∧
    (opcode s.exmem.instr = 3 → ¬ (0 ≤ s.exmem.aluResult.toInt ∧ s.exmem.aluResult.toInt < s.config.memSize) →
      step s = .next (s.raise (.storeOutOfRange s.exmem.aluResult))) ∧
    ((s.config.unrecognizedOpcodeFaults = true → 0 ≤ opcode s.exmem.instr ∧ opcode s.exmem.instr ≤ 7) →
      (s.config.jalrFaults = true → opcode s.exmem.instr ≠ 5) →
      (opcode s.exmem.instr = 2 ∨ opcode s.exmem.instr = 3 →
        0 ≤ s.exmem.aluResult.toInt ∧ s.exmem.aluResult.toInt < s.config.memSize) →
      (¬ (0 ≤ s.pc.toInt ∧ s.pc.toInt < s.config.memSize) →
        step s = .next (s.raise (.fetchOutOfRange s.pc))) ∧
      (0 ≤ s.pc.toInt ∧ s.pc.toInt < s.config.memSize → ∃ t, commits s t))

/-- R166: every committing cycle adds 1 to `cycles`; a faulting one does not count. -/
def Obligations.CyclesCountsCommittedCycles : Prop :=
  ∀ s t : State, step s = .next t →
    (t.fault = none → t.cycles = s.cycles + 1) ∧ (t.fault ≠ none → t.cycles = s.cycles)

/-- R26: `pc` becomes `pc + 1`, keeps its value in a load-use stall, or becomes the branch target, which takes
precedence over the stall. -/
def Obligations.PcChangesInThreeWays : Prop :=
  ∀ s t : State, commits s t →
    (s.branchTaken = true → t.pc = s.exmem.branchTarget) ∧
    (s.branchTaken = false → s.loadUse = true → t.pc = s.pc) ∧
    (s.branchTaken = false → s.loadUse = false → t.pc = s.pc + 1#32)

/-- R143: Fetch puts the word at `pc` and `pc + 1` in `IFID` and advances `pc`, whatever is in the other latches;
the stall and the squash override what it wrote. -/
def Obligations.FetchFillsTheFetchLatch : Prop :=
  ∀ s t : State, commits s t →
    (s.loadUse = false → s.branchTaken = false →
      t.ifid = ⟨s.imem.read s.pc.toNat, s.pc + 1#32⟩ ∧ t.pc = s.pc + 1#32) ∧
    (s.loadUse = true → s.branchTaken = false → t.ifid = s.ifid ∧ t.pc = s.pc) ∧
    (s.branchTaken = true → t.ifid.instr = 0x01C00000#32 ∧ t.pc = s.exmem.branchTarget)

/-- R145, R146: Decode fills `IDEX` from the register file as it stood before the cycle, whatever the opcode; only
the word itself is replaced, by a stall or a squash. -/
def Obligations.DecodeReadsTheRegistersBeforeWriteback : Prop :=
  ∀ s t : State, commits s t →
    t.idex.pcPlus1 = s.ifid.pcPlus1 ∧
    t.idex.readRegA = s.reg.read (fieldA s.ifid.instr) ∧
    t.idex.readRegB = s.reg.read (fieldB s.ifid.instr) ∧
    t.idex.offset = imm s.ifid.instr ∧
    (s.loadUse = false → s.branchTaken = false → t.idex.instr = s.ifid.instr)

/-- R147, R148 (the spec's decision D7: any opcode in `IFID`): behind a load whose destination the word in `IFID`
names, `pc` and `IFID` are held, `IDEX` gets the bubble, the load and the older words move on, and the next cycle
does not stall again. -/
def Obligations.LoadUseStallInsertsExactlyOneBubble : Prop :=
  ∀ s t : State, commits s t → s.branchTaken = false → opcode s.idex.instr = 2 →
    (fieldA s.ifid.instr = fieldB s.idex.instr ∨ fieldB s.ifid.instr = fieldB s.idex.instr) →
    t.pc = s.pc ∧ t.ifid = s.ifid ∧ t.idex.instr = 0x01C00000#32 ∧
    t.exmem.instr = s.idex.instr ∧ t.memwb.instr = s.exmem.instr ∧
    t.wbend.instr = s.memwb.instr ∧ t.loadUse = false

/-- R160, R161: a taken branch sets `pc` to its target and makes bubbles of `IFID`, `IDEX` and `EXMEM` of the next
snapshot, whether or not a stall is called for. That the `beq` itself moves on to `MEMWB` (R158, R168) is the spec's
decision D16. -/
def Obligations.TakenBranchSquashesThreeWords : Prop :=
  ∀ s t : State, commits s t → opcode s.exmem.instr = 4 → s.exmem.eq = true →
    t.pc = s.exmem.branchTarget ∧
    t.ifid.instr = 0x01C00000#32 ∧ t.idex.instr = 0x01C00000#32 ∧ t.exmem.instr = 0x01C00000#32 ∧
    t.memwb = ⟨s.exmem.instr, s.exmem.aluResult⟩

/-- R126, R127: Execute writes the comparator's flag and the target for every opcode (and the store data, R149); for
a `beq` the target is the ALU result; the cycle reads the flag only for a `beq` in `EXMEM`, the target only for a
taken one. -/
def Obligations.ExecuteWritesFlagTargetAndStoreData : Prop :=
  ∀ s t : State, commits s t →
    (opcode s.idex.instr = 4 → t.exmem.aluResult = t.exmem.branchTarget) ∧
    (opcode s.exmem.instr ≠ 4 → ∀ b : Bool, commits { s with exmem := { s.exmem with eq := b } } t) ∧
    (s.branchTaken = false → ∀ v : Word, commits { s with exmem := { s.exmem with branchTarget := v } } t) ∧
    (t.exmem.eq = true ↔ s.operandA = s.operandB) ∧
    t.exmem.branchTarget = s.idex.offset + s.idex.pcPlus1 ∧
    t.exmem.readRegB = s.operandB ∧
    (s.branchTaken = false → t.exmem.instr = s.idex.instr)

/-- R121 to R124: the ALU result in `EXMEM` after the cycle, by the opcode in `IDEX`, modulo 2^32. -/
def Obligations.AluResultByOpcode : Prop :=
  ∀ s t : State, commits s t →
    (opcode s.idex.instr = 0 → t.exmem.aluResult = s.operandA + s.operandB) ∧
    (opcode s.idex.instr = 1 → t.exmem.aluResult = ~~~(s.operandA ||| s.operandB)) ∧
    (opcode s.idex.instr = 2 ∨ opcode s.idex.instr = 3 → t.exmem.aluResult = s.operandA + s.idex.offset) ∧
    (opcode s.idex.instr = 4 → t.exmem.aluResult = s.idex.offset + s.idex.pcPlus1)

/-- R150 to R153: the forwarded operands are the loop of R152 over `WBEND`, `MEMWB`, `EXMEM`, so the nearest writer
of the register wins, else the value read at Decode. -/
def Obligations.NearestWriterIsForwarded : Prop :=
  ∀ (s : State) (i : RegIdx) (v : Word),
    s.forward i v = forwardLoop [(s.wbend.instr, s.wbend.writeData), (s.memwb.instr, s.memwb.writeData),
      (s.exmem.instr, s.exmem.aluResult)] i v ∧
    (writerByNumber (opcode s.exmem.instr) = true → destByNumber s.exmem.instr = i → s.forward i v = s.exmem.aluResult) ∧
    (¬ (writerByNumber (opcode s.exmem.instr) = true ∧ destByNumber s.exmem.instr = i) →
      writerByNumber (opcode s.memwb.instr) = true → destByNumber s.memwb.instr = i → s.forward i v = s.memwb.writeData) ∧
    (¬ (writerByNumber (opcode s.exmem.instr) = true ∧ destByNumber s.exmem.instr = i) →
      ¬ (writerByNumber (opcode s.memwb.instr) = true ∧ destByNumber s.memwb.instr = i) →
      writerByNumber (opcode s.wbend.instr) = true → destByNumber s.wbend.instr = i → s.forward i v = s.wbend.writeData) ∧
    (¬ (writerByNumber (opcode s.exmem.instr) = true ∧ destByNumber s.exmem.instr = i) →
      ¬ (writerByNumber (opcode s.memwb.instr) = true ∧ destByNumber s.memwb.instr = i) →
      ¬ (writerByNumber (opcode s.wbend.instr) = true ∧ destByNumber s.wbend.instr = i) → s.forward i v = v)

/-- R66, R67, R158: what Memory does, by the opcode in `EXMEM`, for a data memory in canonical form; a load reads the
memory of the state before the cycle. -/
def Obligations.MemoryStageByOpcode : Prop :=
  ∀ s t : State, commits s t → s.dmem.wf = true →
    t.memwb.instr = s.exmem.instr ∧
    (opcode s.exmem.instr = 2 → t.memwb.writeData = s.dmem.read s.exmem.aluResult.toNat) ∧
    (opcode s.exmem.instr ≠ 2 → t.memwb.writeData = s.exmem.aluResult) ∧
    (opcode s.exmem.instr = 3 → t.dmem.read s.exmem.aluResult.toNat = s.exmem.readRegB ∧
      ∀ addr : Nat, addr ≠ s.exmem.aluResult.toNat → t.dmem.read addr = s.dmem.read addr) ∧
    (opcode s.exmem.instr ≠ 3 → t.dmem = s.dmem)

/-- R22, R162, R164: Writeback of a load writes `reg[fieldB]`, register 0 like any other; no opcode but `add`, `nor`
and the load writes a register, and at most one changes. `WBEND` takes `MEMWB` (R165). -/
def Obligations.WritebackByOpcode : Prop :=
  ∀ s t : State, commits s t →
    (opcode s.memwb.instr = 2 → ∀ i : RegIdx,
      t.reg.read i = if i = fieldB s.memwb.instr then s.memwb.writeData else s.reg.read i) ∧
    (opcode s.memwb.instr < 0 ∨ 2 < opcode s.memwb.instr → ∀ i : RegIdx, t.reg.read i = s.reg.read i) ∧
    (∀ i j : RegIdx, t.reg.read i ≠ s.reg.read i → t.reg.read j ≠ s.reg.read j → i = j) ∧
    t.wbend = ⟨s.memwb.instr, s.memwb.writeData⟩

/-- R163, R99 (the spec's decision D6): Writeback of an `add` or a `nor` writes the register that the low three bits of
`fieldC` name, whatever bits `[15:3]` are, and no other register. -/
def Obligations.AddAndNorWriteTheLowThreeBitsOfFieldC : Prop :=
  ∀ s t : State, commits s t → opcode s.memwb.instr = 0 ∨ opcode s.memwb.instr = 1 →
    ∀ i : RegIdx, t.reg.read i =
      if i.toNat = (fieldC s.memwb.instr).toNat % 8 then s.memwb.writeData else s.reg.read i

/-- R60, R77, R280: two states that differ only in data memory fetch the same word in the same cycle, and no number
of cycles changes instruction memory or the parameters. -/
def Obligations.StoresAreNeverSeenByFetch : Prop :=
  (∀ (s s' t t' : State) (m : Memory), s' = { s with dmem := m } → commits s t → commits s' t' →
    t'.ifid = t.ifid ∧ t'.pc = t.pc) ∧
  ∀ (k : Nat) (s t : State), runsTo k s t → t.imem = s.imem ∧ t.config = s.config

/-- R37, R166: over any run of `k` cycles that raises no fault, `cycles` grows by `k`. -/
def Obligations.RunOfUnfaultedCyclesCountsThem : Prop :=
  ∀ (k : Nat) (s t : State), runsTo k s t → t.fault = none → t.cycles = s.cycles + k

/-! ## Reset and the host interface -/

/-- R42, R270, R271 for any reset inputs; the auxiliary latch fields and `eq` are 0 by the spec's decision D12. -/
def Obligations.ResetLeavesTheStatedValues : Prop :=
  ∀ (c : Config) (imem0 dmem0 : Memory),
    let s := State.resetWith c imem0 dmem0
    s.pc = 0#32 ∧ (∀ r : RegIdx, s.reg.read r = 0#32) ∧
    s.ifid = ⟨0x01C00000#32, 0#32⟩ ∧ s.idex = ⟨0x01C00000#32, 0#32, 0#32, 0#32, 0#32⟩ ∧
    s.exmem = ⟨0x01C00000#32, 0#32, false, 0#32, 0#32⟩ ∧ s.memwb = ⟨0x01C00000#32, 0#32⟩ ∧
    s.wbend = ⟨0x01C00000#32, 0#32⟩ ∧ s.cycles = 0 ∧ s.fault = none ∧
    s.imem = imem0 ∧ s.dmem = dmem0 ∧ s.config = c

/-- R271 (decisions D4, D5): after reset with an image, word `a` of it stands at address `a` of both memories, every
other word is 0, and the memories are in order if the image fits. The canonical form in that last clause is the
model's (log entry 3). -/
def Obligations.BootMapsTheImageIntoBothMemories : Prop :=
  ∀ (c : Config) (image : List Word),
    (∀ a : Nat, (State.boot c image).imem.read a = image.getD a 0#32 ∧
      (State.boot c image).dmem.read a = image.getD a 0#32) ∧
    (c.valid = true → image.length ≤ c.memSize → (State.boot c image).memoriesOk = true)

/-- The reset state meets the invariants that every step keeps. Its memory size and its empty memories are the
model's (log entries 2 and 4). -/
def Obligations.ResetMeetsTheInvariants : Prop :=
  State.reset.memoriesOk = true ∧ State.reset.noAddressForwarded = true ∧ State.reset.latchesAgree = true

/-- R173, R254 (decisions D17, D18): a rising edge commits the step where one exists and is ignored by a halted or a
faulted block. -/
def Obligations.ClockIsIgnoredWhenHaltedOrFaulted : Prop :=
  ∀ s : State,
    (s.halted = true ∨ s.fault ≠ none → s.clockEdge = s) ∧
    (s.halted = false → s.fault = none → step s = .next s.clockEdge)

/-! ## Invariants and whole-machine statements -/

/-- R28, R29, R67 with D2, D4: every step keeps both memories in canonical form, which is the model's (log entry 3),
and inside `MEM_SIZE`. -/
def Obligations.StepKeepsTheMemoriesInOrder : Prop :=
  ∀ s t : State, s.memoriesOk = true → step s = .next t → t.memoriesOk = true

/-- R35, R96, R125, R127, R155: every step keeps what a latch's word says of its other fields, and never leaves,
behind a load in `EXMEM`, a word in `IDEX` that names the load's destination, but for the bubble. -/
def Obligations.StepKeepsTheLatchesInAgreement : Prop :=
  ∀ s t : State, s.noAddressForwarded = true → s.latchesAgree = true → step s = .next t →
    t.noAddressForwarded = true ∧ t.latchesAgree = true

/-- R155: under that invariant the address a load forwards from `EXMEM` reaches no operand of an instruction. -/
def Obligations.LoadAddressReachesNoOperand : Prop :=
  ∀ s : State, s.noAddressForwarded = true → opcode s.exmem.instr = 2 → s.idex.instr ≠ 0x01C00000#32 →
    s.operandA = forwardFrom s.memwb.instr s.memwb.writeData (fieldA s.idex.instr)
      (forwardFrom s.wbend.instr s.wbend.writeData (fieldA s.idex.instr) s.idex.readRegA) ∧
    s.operandB = forwardFrom s.memwb.instr s.memwb.writeData (fieldB s.idex.instr)
      (forwardFrom s.wbend.instr s.wbend.writeData (fieldB s.idex.instr) s.idex.readRegB)

/-- R35, R167: no rule reads the auxiliary fields of a latch that holds a `noop` for an effect: two states that
differ only in them step to states that differ only in them. -/
def Obligations.BubbleFieldsHaveNoEffect : Prop :=
  ∀ s s' t : State, s.sameButBubbles s' = true → step s = .next t →
    ∃ t', step s' = .next t' ∧ t.sameButBubbles t' = true

/-- R201, R202 over three cycles: the forwarded operands of an `add` or `nor` in `IDEX` that is not squashed are in
its destination register, combined, three committed cycles later. -/
def Obligations.AddAndNorReachTheirRegister : Prop :=
  ∀ s s1 s2 s3 : State, commits s s1 → commits s1 s2 → commits s2 s3 → s.branchTaken = false →
    (opcode s.idex.instr = 0 → s3.reg.read (s.idex.instr.extractLsb' 0 3) = s.operandA + s.operandB) ∧
    (opcode s.idex.instr = 1 → s3.reg.read (s.idex.instr.extractLsb' 0 3) = ~~~(s.operandA ||| s.operandB))

/-- R203, R204, R211 over three cycles: a `lw` in `IDEX` that is not squashed leaves in `reg[fieldB]` the word at base
plus offset; a `sw` leaves its forwarded data at base plus offset one cycle earlier. -/
def Obligations.LwAndSwReachRegisterAndMemory : Prop :=
  ∀ s s1 s2 s3 : State, commits s s1 → commits s1 s2 → commits s2 s3 → s.branchTaken = false →
    s1.dmem.wf = true →
    (opcode s.idex.instr = 2 →
      s3.reg.read (fieldB s.idex.instr) = s1.dmem.read (s.operandA + s.idex.offset).toNat) ∧
    (opcode s.idex.instr = 3 →
      s2.dmem.read (s.operandA + s.idex.offset).toNat = s.operandB ∧ s3.reg = s2.reg.writeDest (destOf s2.memwb.instr) s2.memwb.writeData ∧
      destOf s2.memwb.instr = none)

/-- R205, R210, R284: a `beq` in `IDEX` that is not squashed is decided by its forwarded operands: equal, and two
cycles later `pc` is `pcPlus1 + offset` and the three younger latches hold bubbles; unequal, and the branch squashes
nothing. -/
def Obligations.BeqIsDecidedByItsOperands : Prop :=
  ∀ s s1 s2 : State, commits s s1 → commits s1 s2 → s.branchTaken = false → opcode s.idex.instr = 4 →
    (s.operandA = s.operandB →
      s2.pc = s.idex.pcPlus1 + s.idex.offset ∧ s2.ifid.instr = 0x01C00000#32 ∧ s2.idex.instr = 0x01C00000#32 ∧
      s2.exmem.instr = 0x01C00000#32) ∧
    (s.operandA ≠ s.operandB → s1.branchTaken = false ∧ s2.exmem.instr = s1.idex.instr)

/-- R282: a word fetched in a cycle, with no stall before it leaves `IFID` and no squash before it leaves `EXMEM`,
is in `WBEND` five cycles after its fetch began. -/
def Obligations.FetchedWordRetiresAfterFiveCycles : Prop :=
  ∀ s s1 s2 s3 s4 s5 : State, commits s s1 → commits s1 s2 → commits s2 s3 → commits s3 s4 → commits s4 s5 →
    s.loadUse = false → s1.loadUse = false →
    s.branchTaken = false → s1.branchTaken = false → s2.branchTaken = false →
    s5.wbend.instr = s.imem.read s.pc.toNat ∧ s5.cycles = s.cycles + 5

/-- R281 with R279, a property the spec says is to be proved: a run from reset that ends normally has the registers
of the sequential machine `SEQ` at its `halt`, and its data memory after the Memory stage of the word at `h + 1`. -/
def Obligations.FinishedRunAgreesWithTheSequentialReading : Prop :=
  ∀ (c : Config) (imem0 dmem0 : Memory) (t : State), finishesIn (State.resetWith c imem0 dmem0) t →
    ∃ (n : Nat) (q : Seq), Seq.run n (Seq.start c imem0 dmem0) = some q ∧ q.atHalt = true ∧
      t.reg = q.reg ∧ t.dmem = q.dmemAfterHalt
end

