-- ==== Sys2Proof/Laws/Decode.lean ====
section
/-! SUPPORT. What a successful decoding says about the opcode, and the meaning of a word in flight as the
shared operation with the word's control signals. -/

namespace Sys2Proof

/-- `Instr.isWord` is decoding to the instruction. -/
theorem isWord_iff (i : Instr) (w : Word) : i.isWord w = true ↔ decode w = .ok i := by
  unfold Instr.isWord
  cases decode w with
  | ok j => simp
  | error e => simp

/-- A decoded word's opcode is its instruction's. -/
theorem opOf_of_decode {w : Word} {i : Instr} (h : decode w = .ok i) : opOf w = some i.op := by
  unfold decode at h
  split at h <;> cases h <;> assumption

/-- The decoder refuses exactly the words R92 gives no opcode. -/
theorem opOf_of_decode_error {w : Word} {e : DecodeError} (h : decode w = .error e) : opOf w = none := by
  unfold decode at h
  split at h
  all_goals first | assumption | cases h

/-- `opOf` names an opcode exactly at its number (R92). -/
theorem opOf_iff (w : Word) (o : Op) : opOf w = some o ↔ opcode w = o.number := by
  unfold opOf
  cases o <;> simp only [Op.number] <;> split <;> simp_all

/-- `opOf` names nothing exactly outside `0..7` (R93, R101). -/
theorem opOf_none (w : Word) : opOf w = none ↔ (opcode w < 0 ∨ 7 < opcode w) := by
  unfold opOf
  split <;> simp_all
  omega

theorem opOf_noopWord : opOf noopWord = some .noop := by decide

/-! A word decodes to an instruction when its opcode and its fields are the instruction's. -/

theorem decode_add_iff (w : Word) (a b : RegIdx) (c : Half) : decode w = .ok (.add a b c) ↔
    opOf w = some .add ∧ fieldA w = a ∧ fieldB w = b ∧ fieldC w = c := by
  unfold decode; cases opOf w with
  | none => simp
  | some o => cases o <;> simp

theorem decode_nor_iff (w : Word) (a b : RegIdx) (c : Half) : decode w = .ok (.nor a b c) ↔
    opOf w = some .nor ∧ fieldA w = a ∧ fieldB w = b ∧ fieldC w = c := by
  unfold decode; cases opOf w with
  | none => simp
  | some o => cases o <;> simp

theorem decode_lw_iff (w : Word) (a b : RegIdx) (off : Int) : decode w = .ok (.lw a b off) ↔
    opOf w = some .lw ∧ fieldA w = a ∧ fieldB w = b ∧ (fieldC w).toInt = off := by
  unfold decode; cases opOf w with
  | none => simp
  | some o => cases o <;> simp

theorem decode_sw_iff (w : Word) (a b : RegIdx) (off : Int) : decode w = .ok (.sw a b off) ↔
    opOf w = some .sw ∧ fieldA w = a ∧ fieldB w = b ∧ (fieldC w).toInt = off := by
  unfold decode; cases opOf w with
  | none => simp
  | some o => cases o <;> simp

theorem decode_beq_iff (w : Word) (a b : RegIdx) (off : Int) : decode w = .ok (.beq a b off) ↔
    opOf w = some .beq ∧ fieldA w = a ∧ fieldB w = b ∧ (fieldC w).toInt = off := by
  unfold decode; cases opOf w with
  | none => simp
  | some o => cases o <;> simp

theorem decode_jalr_iff (w : Word) (a b : RegIdx) (c : Half) : decode w = .ok (.jalr a b c) ↔
    opOf w = some .jalr ∧ fieldA w = a ∧ fieldB w = b ∧ fieldC w = c := by
  unfold decode; cases opOf w with
  | none => simp
  | some o => cases o <;> simp

theorem decode_halt_iff (w : Word) (a b : RegIdx) (c : Half) : decode w = .ok (.halt a b c) ↔
    opOf w = some .halt ∧ fieldA w = a ∧ fieldB w = b ∧ fieldC w = c := by
  unfold decode; cases opOf w with
  | none => simp
  | some o => cases o <;> simp

theorem decode_noop_iff (w : Word) (a b : RegIdx) (c : Half) : decode w = .ok (.noop a b c) ↔
    opOf w = some .noop ∧ fieldA w = a ∧ fieldB w = b ∧ fieldC w = c := by
  unfold decode; cases opOf w with
  | none => simp
  | some o => cases o <;> simp

namespace Machine

/-- The control signals of a word, by its opcode. -/
def controlOf (w : Word) : Control :=
  match opOf w with
  | some .add => { alu := .add, mem := .pass, dest := some (destIndex (fieldC w)) }
  | some .nor => { alu := .nor, mem := .pass, dest := some (destIndex (fieldC w)) }
  | some .lw => { alu := .address, mem := .load, dest := some (fieldB w) }
  | some .sw => { alu := .address, mem := .store, dest := none }
  | some .beq => { alu := .target, mem := .branch, dest := none }
  | some .jalr => { alu := .zero, mem := .unimplemented, dest := none }
  | some .halt => { alu := .zero, mem := .pass, dest := none }
  | some .noop => { alu := .zero, mem := .pass, dest := none }
  | none => { alu := .zero, mem := .unrecognized, dest := none }

/-- The words that are the same instruction as `w`. -/
def sameInstr (w v : Word) : Bool :=
  match decode w with
  | .ok i => i.isWord v
  | .error _ => decide (v = w)

/-- The meaning of every word in flight is the shared operation with the word's control signals. -/
theorem runWord_eq (w : Word) (s : State) : runWord w s = runStages (sameInstr w) (controlOf w) s := by
  unfold runWord sameInstr
  cases hd : decode w with
  | error e => simp [execUnrecognized, controlOf, opOf_of_decode_error hd]
  | ok i =>
    cases i with
    | add a b c =>
      obtain ⟨ho, rfl, rfl, rfl⟩ := (decode_add_iff w a b c).1 hd
      simp only [controlOf, ho]; rfl
    | nor a b c =>
      obtain ⟨ho, rfl, rfl, rfl⟩ := (decode_nor_iff w a b c).1 hd
      simp only [controlOf, ho]; rfl
    | lw a b off =>
      obtain ⟨ho, rfl, rfl, rfl⟩ := (decode_lw_iff w a b off).1 hd
      simp only [controlOf, ho]; rfl
    | sw a b off =>
      obtain ⟨ho, rfl, rfl, rfl⟩ := (decode_sw_iff w a b off).1 hd
      simp only [controlOf, ho]; rfl
    | beq a b off =>
      obtain ⟨ho, rfl, rfl, rfl⟩ := (decode_beq_iff w a b off).1 hd
      simp only [controlOf, ho]; rfl
    | jalr a b c =>
      obtain ⟨ho, rfl, rfl, rfl⟩ := (decode_jalr_iff w a b c).1 hd
      simp only [controlOf, ho]; rfl
    | halt a b c =>
      obtain ⟨ho, rfl, rfl, rfl⟩ := (decode_halt_iff w a b c).1 hd
      simp only [controlOf, ho]; rfl
    | noop a b c =>
      obtain ⟨ho, rfl, rfl, rfl⟩ := (decode_noop_iff w a b c).1 hd
      simp only [controlOf, ho]; rfl

@[simp] theorem sameInstr_self (w : Word) : sameInstr w w = true := by
  unfold sameInstr
  cases hd : decode w with
  | error e => simp
  | ok i => exact (isWord_iff i w).2 hd

/-- Two words that are the same instruction have the same control signals. -/
theorem controlOf_of_sameInstr {w v : Word} (h : sameInstr w v = true) : controlOf v = controlOf w := by
  unfold sameInstr at h
  cases hd : decode w with
  | error e => rw [hd] at h; simp only [decide_eq_true_eq] at h; rw [h]
  | ok i =>
    rw [hd] at h
    have hv := (isWord_iff i v).1 h
    cases i with
    | add a b c =>
      obtain ⟨h1, -, -, hc1⟩ := (decode_add_iff w a b c).1 hd
      obtain ⟨h2, -, -, hc2⟩ := (decode_add_iff v a b c).1 hv
      simp [controlOf, h1, h2, hc1, hc2]
    | nor a b c =>
      obtain ⟨h1, -, -, hc1⟩ := (decode_nor_iff w a b c).1 hd
      obtain ⟨h2, -, -, hc2⟩ := (decode_nor_iff v a b c).1 hv
      simp [controlOf, h1, h2, hc1, hc2]
    | lw a b off =>
      obtain ⟨h1, -, hb1, -⟩ := (decode_lw_iff w a b off).1 hd
      obtain ⟨h2, -, hb2, -⟩ := (decode_lw_iff v a b off).1 hv
      simp [controlOf, h1, h2, hb1, hb2]
    | sw a b off =>
      obtain ⟨h1, -⟩ := (decode_sw_iff w a b off).1 hd
      obtain ⟨h2, -⟩ := (decode_sw_iff v a b off).1 hv
      simp [controlOf, h1, h2]
    | beq a b off =>
      obtain ⟨h1, -⟩ := (decode_beq_iff w a b off).1 hd
      obtain ⟨h2, -⟩ := (decode_beq_iff v a b off).1 hv
      simp [controlOf, h1, h2]
    | jalr a b c =>
      obtain ⟨h1, -⟩ := (decode_jalr_iff w a b c).1 hd
      obtain ⟨h2, -⟩ := (decode_jalr_iff v a b c).1 hv
      simp [controlOf, h1, h2]
    | halt a b c =>
      obtain ⟨h1, -⟩ := (decode_halt_iff w a b c).1 hd
      obtain ⟨h2, -⟩ := (decode_halt_iff v a b c).1 hv
      simp [controlOf, h1, h2]
    | noop a b c =>
      obtain ⟨h1, -⟩ := (decode_noop_iff w a b c).1 hd
      obtain ⟨h2, -⟩ := (decode_noop_iff v a b c).1 hv
      simp [controlOf, h1, h2]

end Machine

end Sys2Proof
end

