-- ==== Sys2Proof/Laws/Memory.lean ====
section
/-! SUPPORT. The laws of a memory and of the register file: read after write, and that every operation
keeps the canonical form and the address bound (spec/20_memory.md R64, R67; spec/10_state.md R22). -/

namespace Sys2Proof.Machine

@[simp] theorem Memory.read_nil (a : Nat) : Memory.read [] a = Memory.unlisted := rfl

/-- Below the first listed address of a canonical list nothing is listed. -/
theorem Memory.read_of_wfAbove {m : Memory} {k a : Nat} (h : m.wfAbove k = true) (ha : a ≤ k) :
    m.read a = Memory.unlisted := by
  cases m with
  | nil => rfl
  | cons p rest =>
    obtain ⟨j, v⟩ := p
    simp only [Memory.wfAbove, Bool.and_eq_true, decide_eq_true_eq] at h
    have h1 : a ≠ j := by omega
    have h2 : a < j := by omega
    simp [Memory.read, h1, h2]

theorem Memory.wfAbove_mono {m : Memory} {j k : Nat} (h : m.wfAbove k = true) (hjk : j ≤ k) :
    m.wfAbove j = true := by
  cases m with
  | nil => rfl
  | cons p rest =>
    simp only [Memory.wfAbove, Bool.and_eq_true, decide_eq_true_eq] at h ⊢
    exact ⟨⟨by omega, h.1.2⟩, h.2⟩

theorem Memory.wf_of_wfAbove {m : Memory} {k : Nat} (h : m.wfAbove k = true) : m.wf = true := by
  cases m with
  | nil => rfl
  | cons p rest =>
    simp only [Memory.wfAbove, Memory.wf, Bool.and_eq_true, decide_eq_true_eq] at h ⊢
    exact ⟨h.1.2, h.2⟩

theorem Memory.wfAbove_cell {m : Memory} {k a : Nat} {v : Word} (hka : k < a) (h : m.wfAbove a = true) :
    (Memory.cell a v m).wfAbove k = true := by
  unfold Memory.cell
  split
  · exact Memory.wfAbove_mono h (Nat.le_of_lt hka)
  · rename_i hv
    simp [Memory.wfAbove, hka, hv, h]

theorem Memory.wfAbove_write {m : Memory} {k a : Nat} {v : Word} (hka : k < a) (h : m.wfAbove k = true) :
    (m.write a v).wfAbove k = true := by
  induction m generalizing k with
  | nil => exact Memory.wfAbove_cell hka rfl
  | cons p rest ih =>
    obtain ⟨j, u⟩ := p
    have hj := h
    simp only [Memory.wfAbove, Bool.and_eq_true, decide_eq_true_eq] at hj
    unfold Memory.write
    split
    · subst_vars
      exact Memory.wfAbove_cell hka hj.2
    · split
      · rename_i hlt
        exact Memory.wfAbove_cell hka (by simp [Memory.wfAbove, hlt, hj.1.2, hj.2])
      · simp only [Memory.wfAbove, Bool.and_eq_true, decide_eq_true_eq]
        exact ⟨hj.1, ih (by omega) hj.2⟩

/-- A write keeps the canonical form. -/
theorem Memory.wf_write {m : Memory} (a : Nat) (v : Word) (h : m.wf = true) : (m.write a v).wf = true := by
  cases m with
  | nil =>
    unfold Memory.write Memory.cell
    split
    · rfl
    · rename_i hv
      simp [Memory.wf, Memory.wfAbove, hv]
  | cons p rest =>
    obtain ⟨j, u⟩ := p
    have hj := h
    simp only [Memory.wf, Bool.and_eq_true, decide_eq_true_eq] at hj
    unfold Memory.write
    split
    · subst_vars
      unfold Memory.cell
      split
      · exact Memory.wf_of_wfAbove hj.2
      · rename_i hv
        simp [Memory.wf, hv, hj.2]
    · split
      · rename_i hlt
        unfold Memory.cell
        split
        · exact h
        · rename_i hv
          simp [Memory.wf, Memory.wfAbove, hv, hlt, hj.1, hj.2]
      · simp only [Memory.wf, Bool.and_eq_true, decide_eq_true_eq]
        exact ⟨hj.1, Memory.wfAbove_write (by omega) hj.2⟩

/-- A write below the bound keeps every listed address below it. -/
theorem Memory.within_write {m : Memory} {n a : Nat} (v : Word) (ha : a < n) (h : m.within n = true) :
    (m.write a v).within n = true := by
  induction m with
  | nil =>
    unfold Memory.write Memory.cell
    split <;> simp [Memory.within, ha]
  | cons p rest ih =>
    obtain ⟨j, u⟩ := p
    have hj := h
    simp only [Memory.within, Bool.and_eq_true, decide_eq_true_eq] at hj
    unfold Memory.write
    split
    · unfold Memory.cell
      split <;> simp [Memory.within, ha, hj.2]
    · split
      · unfold Memory.cell
        split <;> simp [Memory.within, ha, hj.1, hj.2]
      · simp [Memory.within, hj.1, ih hj.2]

theorem Memory.read_cell {m : Memory} {a : Nat} (v : Word) (b : Nat) (h : m.wfAbove a = true) :
    (Memory.cell a v m).read b = if b = a then v else m.read b := by
  unfold Memory.cell
  split
  · rename_i hv
    split
    · subst_vars
      exact Memory.read_of_wfAbove h (Nat.le_refl _)
    · rfl
  · by_cases hb : b = a
    · simp [Memory.read, hb]
    · simp only [Memory.read, hb, if_false]
      split
      · rename_i hlt
        exact (Memory.read_of_wfAbove h (Nat.le_of_lt hlt)).symm
      · rfl

theorem Memory.read_write_above {m : Memory} {k : Nat} (a : Nat) (v : Word) (b : Nat) (h : m.wfAbove k = true) :
    (m.write a v).read b = if b = a then v else m.read b := by
  induction m generalizing k with
  | nil => exact Memory.read_cell v b rfl
  | cons p rest ih =>
    obtain ⟨j, u⟩ := p
    have hj := h
    simp only [Memory.wfAbove, Bool.and_eq_true, decide_eq_true_eq] at hj
    unfold Memory.write
    split
    · rename_i haj
      subst haj
      rw [Memory.read_cell v b hj.2]
      by_cases hb : b = a
      · simp [hb]
      · by_cases hlt : b < a
        · simp [Memory.read, hb, hlt, Memory.read_of_wfAbove hj.2 (Nat.le_of_lt hlt)]
        · simp [Memory.read, hb, hlt]
    · split
      · rename_i hlt
        exact Memory.read_cell v b (by simp [Memory.wfAbove, hlt, hj.1.2, hj.2])
      · by_cases hbj : b = j
        · have : b ≠ a := by omega
          simp [Memory.read, hbj]
          omega
        · by_cases hlt : b < j
          · have : b ≠ a := by omega
            simp [Memory.read, hbj, hlt, this]
          · simp [Memory.read, hbj, hlt, ih hj.2]

/-- Reading after a write: the word written at its address, the old word everywhere else. -/
theorem Memory.read_write {m : Memory} (a : Nat) (v : Word) (b : Nat) (h : m.wf = true) :
    (m.write a v).read b = if b = a then v else m.read b := by
  cases m with
  | nil => exact Memory.read_cell v b rfl
  | cons p rest =>
    obtain ⟨j, u⟩ := p
    have hj := h
    simp only [Memory.wf, Bool.and_eq_true, decide_eq_true_eq] at hj
    cases j with
    | succ k =>
      exact Memory.read_write_above (k := k) a v b (by simp [Memory.wfAbove, hj.1, hj.2])
    | zero =>
      unfold Memory.write
      by_cases ha : a = 0
      · subst ha
        rw [if_pos rfl, Memory.read_cell v b hj.2]
        by_cases hb : b = 0 <;> simp [Memory.read, hb]
      · have hn : ¬ a < 0 := Nat.not_lt_zero a
        by_cases hb : b = 0
        · have : ¬ (0 = a) := fun h => ha h.symm
          simp [Memory.read, ha, hb, this]
        · simp [Memory.read, ha, hb, Memory.read_write_above a v b hj.2]

/-- A write leaves every other address alone, whatever the form of the list. -/
theorem Memory.read_write_of_ne {m : Memory} {a b : Nat} (v : Word) (h : m.wf = true) (hb : b ≠ a) :
    (m.write a v).read b = m.read b := by
  rw [Memory.read_write a v b h, if_neg hb]

theorem Memory.wf_place {m : Memory} (a : Nat) (ws : List Word) (h : m.wf = true) : (m.place a ws).wf = true := by
  induction ws generalizing m a with
  | nil => exact h
  | cons w ws ih => exact ih (a + 1) (Memory.wf_write a w h)

theorem Memory.within_place {m : Memory} {n : Nat} (a : Nat) (ws : List Word) (ha : a + ws.length ≤ n)
    (h : m.within n = true) : (m.place a ws).within n = true := by
  induction ws generalizing m a with
  | nil => exact h
  | cons w ws ih =>
    simp only [List.length_cons] at ha
    exact ih (a + 1) (by omega) (Memory.within_write w (by omega) h)

/-- A program image is a memory in canonical form. -/
theorem Memory.wf_ofImage (ws : List Word) : (Memory.ofImage ws).wf = true := Memory.wf_place 0 ws rfl

/-- The memories of the reset state are in canonical form. -/
theorem reset_memories_wf : State.reset.imem.wf = true ∧ State.reset.dmem.wf = true := ⟨rfl, rfl⟩

/-- Reading the register file after a write; no index is special (R22). -/
theorem RegFile.read_write (r : RegFile) (i j : RegIdx) (v : Word) :
    RegFile.read (RegFile.write r i v) j = if i = j then v else RegFile.read r j := by
  simp [RegFile.write, RegFile.read, Vector.getElem_set, BitVec.toNat_inj]

theorem RegFile.read_writeDest (r : RegFile) (dest : Option RegIdx) (j : RegIdx) (v : Word) :
    RegFile.read (RegFile.writeDest r dest v) j = if dest = some j then v else RegFile.read r j := by
  cases dest with
  | none => simp [RegFile.writeDest]
  | some i => simp [RegFile.writeDest, RegFile.read_write]

end Sys2Proof.Machine
end

