-- ==== Sys2Proof/Laws/PerInstr.lean ====
section
/-! SUPPORT. The statements made per instruction: one lemma per constructor of `Instr`. -/

namespace Sys2Proof.Laws

/-- A word that is the instruction carries the instruction's opcode number (R92, R97). -/
def DecodedOpcode.Statement (i : Instr) : Prop := ∀ w : Word, decode w = .ok i → opcode w = i.op.number

theorem decodedOpcode_of_any (i : Instr) : DecodedOpcode.Statement i :=
  fun w h => (opOf_iff w i.op).1 (opOf_of_decode h)

theorem DecodedOpcode.add (a b : RegIdx) (c : Half) : DecodedOpcode.Statement (.add a b c) := decodedOpcode_of_any _
theorem DecodedOpcode.nor (a b : RegIdx) (c : Half) : DecodedOpcode.Statement (.nor a b c) := decodedOpcode_of_any _
theorem DecodedOpcode.lw (a b : RegIdx) (off : Int) : DecodedOpcode.Statement (.lw a b off) := decodedOpcode_of_any _
theorem DecodedOpcode.sw (a b : RegIdx) (off : Int) : DecodedOpcode.Statement (.sw a b off) := decodedOpcode_of_any _
theorem DecodedOpcode.beq (a b : RegIdx) (off : Int) : DecodedOpcode.Statement (.beq a b off) := decodedOpcode_of_any _
theorem DecodedOpcode.jalr (a b : RegIdx) (c : Half) : DecodedOpcode.Statement (.jalr a b c) := decodedOpcode_of_any _
theorem DecodedOpcode.halt (a b : RegIdx) (c : Half) : DecodedOpcode.Statement (.halt a b c) := decodedOpcode_of_any _
theorem DecodedOpcode.noop (a b : RegIdx) (c : Half) : DecodedOpcode.Statement (.noop a b c) := decodedOpcode_of_any _

end Sys2Proof.Laws
end

