-- ==== Sys2Proof/Laws/State.lean ====
section
/-! SUPPORT. One lemma per field per update of State: what each named operation puts in each field. -/

namespace Sys2Proof.Machine

@[simp] theorem State.raise_config (s : State) (r : FaultReason) : (s.raise r).config = s.config := rfl
@[simp] theorem State.raise_pc (s : State) (r : FaultReason) : (s.raise r).pc = s.pc := rfl
@[simp] theorem State.raise_imem (s : State) (r : FaultReason) : (s.raise r).imem = s.imem := rfl
@[simp] theorem State.raise_dmem (s : State) (r : FaultReason) : (s.raise r).dmem = s.dmem := rfl
@[simp] theorem State.raise_reg (s : State) (r : FaultReason) : (s.raise r).reg = s.reg := rfl
@[simp] theorem State.raise_ifid (s : State) (r : FaultReason) : (s.raise r).ifid = s.ifid := rfl
@[simp] theorem State.raise_idex (s : State) (r : FaultReason) : (s.raise r).idex = s.idex := rfl
@[simp] theorem State.raise_exmem (s : State) (r : FaultReason) : (s.raise r).exmem = s.exmem := rfl
@[simp] theorem State.raise_memwb (s : State) (r : FaultReason) : (s.raise r).memwb = s.memwb := rfl
@[simp] theorem State.raise_wbend (s : State) (r : FaultReason) : (s.raise r).wbend = s.wbend := rfl
@[simp] theorem State.raise_cycles (s : State) (r : FaultReason) : (s.raise r).cycles = s.cycles := rfl
@[simp] theorem State.raise_fault (s : State) (r : FaultReason) : (s.raise r).fault = some r := rfl

@[simp] theorem State.placeAtPc_config (s : State) (w : Word) : (s.placeAtPc w).config = s.config := rfl
@[simp] theorem State.placeAtPc_pc (s : State) (w : Word) : (s.placeAtPc w).pc = s.pc := rfl
@[simp] theorem State.placeAtPc_imem (s : State) (w : Word) :
    (s.placeAtPc w).imem = s.imem.write (addressOf s.pc) w := rfl
@[simp] theorem State.placeAtPc_dmem (s : State) (w : Word) : (s.placeAtPc w).dmem = s.dmem := rfl
@[simp] theorem State.placeAtPc_reg (s : State) (w : Word) : (s.placeAtPc w).reg = s.reg := rfl
@[simp] theorem State.placeAtPc_ifid (s : State) (w : Word) : (s.placeAtPc w).ifid = s.ifid := rfl
@[simp] theorem State.placeAtPc_idex (s : State) (w : Word) : (s.placeAtPc w).idex = s.idex := rfl
@[simp] theorem State.placeAtPc_exmem (s : State) (w : Word) : (s.placeAtPc w).exmem = s.exmem := rfl
@[simp] theorem State.placeAtPc_memwb (s : State) (w : Word) : (s.placeAtPc w).memwb = s.memwb := rfl
@[simp] theorem State.placeAtPc_wbend (s : State) (w : Word) : (s.placeAtPc w).wbend = s.wbend := rfl
@[simp] theorem State.placeAtPc_cycles (s : State) (w : Word) : (s.placeAtPc w).cycles = s.cycles := rfl
@[simp] theorem State.placeAtPc_fault (s : State) (w : Word) : (s.placeAtPc w).fault = s.fault := rfl

@[simp] theorem fetchStage_config (s s' : State) : (fetchStage s s').config = s'.config := rfl
@[simp] theorem fetchStage_pc (s s' : State) : (fetchStage s s').pc = s.pc + 1#32 := rfl
@[simp] theorem fetchStage_imem (s s' : State) : (fetchStage s s').imem = s'.imem := rfl
@[simp] theorem fetchStage_dmem (s s' : State) : (fetchStage s s').dmem = s'.dmem := rfl
@[simp] theorem fetchStage_reg (s s' : State) : (fetchStage s s').reg = s'.reg := rfl
@[simp] theorem fetchStage_ifid (s s' : State) :
    (fetchStage s s').ifid = { instr := s.fetchWord, pcPlus1 := s.pc + 1#32 } := rfl
@[simp] theorem fetchStage_idex (s s' : State) : (fetchStage s s').idex = s'.idex := rfl
@[simp] theorem fetchStage_exmem (s s' : State) : (fetchStage s s').exmem = s'.exmem := rfl
@[simp] theorem fetchStage_memwb (s s' : State) : (fetchStage s s').memwb = s'.memwb := rfl
@[simp] theorem fetchStage_wbend (s s' : State) : (fetchStage s s').wbend = s'.wbend := rfl
@[simp] theorem fetchStage_cycles (s s' : State) : (fetchStage s s').cycles = s'.cycles := rfl
@[simp] theorem fetchStage_fault (s s' : State) : (fetchStage s s').fault = s'.fault := rfl

@[simp] theorem decodeStage_config (s s' : State) : (decodeStage s s').config = s'.config := rfl
@[simp] theorem decodeStage_pc (s s' : State) : (decodeStage s s').pc = s'.pc := rfl
@[simp] theorem decodeStage_imem (s s' : State) : (decodeStage s s').imem = s'.imem := rfl
@[simp] theorem decodeStage_dmem (s s' : State) : (decodeStage s s').dmem = s'.dmem := rfl
@[simp] theorem decodeStage_reg (s s' : State) : (decodeStage s s').reg = s'.reg := rfl
@[simp] theorem decodeStage_ifid (s s' : State) : (decodeStage s s').ifid = s'.ifid := rfl
@[simp] theorem decodeStage_idex (s s' : State) :
    (decodeStage s s').idex = { instr := s.ifid.instr, pcPlus1 := s.ifid.pcPlus1, readRegA := s.reg.read (fieldA s.ifid.instr), readRegB := s.reg.read (fieldB s.ifid.instr), offset := imm s.ifid.instr } := rfl
@[simp] theorem decodeStage_exmem (s s' : State) : (decodeStage s s').exmem = s'.exmem := rfl
@[simp] theorem decodeStage_memwb (s s' : State) : (decodeStage s s').memwb = s'.memwb := rfl
@[simp] theorem decodeStage_wbend (s s' : State) : (decodeStage s s').wbend = s'.wbend := rfl
@[simp] theorem decodeStage_cycles (s s' : State) : (decodeStage s s').cycles = s'.cycles := rfl
@[simp] theorem decodeStage_fault (s s' : State) : (decodeStage s s').fault = s'.fault := rfl

@[simp] theorem stallStage_config (s s' : State) : (stallStage s s').config = s'.config := rfl
@[simp] theorem stallStage_pc (s s' : State) : (stallStage s s').pc = s.pc := rfl
@[simp] theorem stallStage_imem (s s' : State) : (stallStage s s').imem = s'.imem := rfl
@[simp] theorem stallStage_dmem (s s' : State) : (stallStage s s').dmem = s'.dmem := rfl
@[simp] theorem stallStage_reg (s s' : State) : (stallStage s s').reg = s'.reg := rfl
@[simp] theorem stallStage_ifid (s s' : State) : (stallStage s s').ifid = s.ifid := rfl
@[simp] theorem stallStage_idex (s s' : State) : (stallStage s s').idex = { s'.idex with instr := noopWord } := rfl
@[simp] theorem stallStage_exmem (s s' : State) : (stallStage s s').exmem = s'.exmem := rfl
@[simp] theorem stallStage_memwb (s s' : State) : (stallStage s s').memwb = s'.memwb := rfl
@[simp] theorem stallStage_wbend (s s' : State) : (stallStage s s').wbend = s'.wbend := rfl
@[simp] theorem stallStage_cycles (s s' : State) : (stallStage s s').cycles = s'.cycles := rfl
@[simp] theorem stallStage_fault (s s' : State) : (stallStage s s').fault = s'.fault := rfl

@[simp] theorem executeStage_config (op : AluOp) (s s' : State) : (executeStage op s s').config = s'.config := rfl
@[simp] theorem executeStage_pc (op : AluOp) (s s' : State) : (executeStage op s s').pc = s'.pc := rfl
@[simp] theorem executeStage_imem (op : AluOp) (s s' : State) : (executeStage op s s').imem = s'.imem := rfl
@[simp] theorem executeStage_dmem (op : AluOp) (s s' : State) : (executeStage op s s').dmem = s'.dmem := rfl
@[simp] theorem executeStage_reg (op : AluOp) (s s' : State) : (executeStage op s s').reg = s'.reg := rfl
@[simp] theorem executeStage_ifid (op : AluOp) (s s' : State) : (executeStage op s s').ifid = s'.ifid := rfl
@[simp] theorem executeStage_idex (op : AluOp) (s s' : State) : (executeStage op s s').idex = s'.idex := rfl
@[simp] theorem executeStage_exmem (op : AluOp) (s s' : State) :
    (executeStage op s s').exmem = { instr := s.idex.instr, branchTarget := s.targetOf, eq := s.operandsEqual, aluResult := alu op s.operandA s.operandB s.idex.offset s.idex.pcPlus1, readRegB := s.operandB } := rfl
@[simp] theorem executeStage_memwb (op : AluOp) (s s' : State) : (executeStage op s s').memwb = s'.memwb := rfl
@[simp] theorem executeStage_wbend (op : AluOp) (s s' : State) : (executeStage op s s').wbend = s'.wbend := rfl
@[simp] theorem executeStage_cycles (op : AluOp) (s s' : State) : (executeStage op s s').cycles = s'.cycles := rfl
@[simp] theorem executeStage_fault (op : AluOp) (s s' : State) : (executeStage op s s').fault = s'.fault := rfl

@[simp] theorem passStage_config (s s' : State) : (passStage s s').config = s'.config := rfl
@[simp] theorem passStage_pc (s s' : State) : (passStage s s').pc = s'.pc := rfl
@[simp] theorem passStage_imem (s s' : State) : (passStage s s').imem = s'.imem := rfl
@[simp] theorem passStage_dmem (s s' : State) : (passStage s s').dmem = s'.dmem := rfl
@[simp] theorem passStage_reg (s s' : State) : (passStage s s').reg = s'.reg := rfl
@[simp] theorem passStage_ifid (s s' : State) : (passStage s s').ifid = s'.ifid := rfl
@[simp] theorem passStage_idex (s s' : State) : (passStage s s').idex = s'.idex := rfl
@[simp] theorem passStage_exmem (s s' : State) : (passStage s s').exmem = s'.exmem := rfl
@[simp] theorem passStage_memwb (s s' : State) :
    (passStage s s').memwb = { instr := s.exmem.instr, writeData := s.exmem.aluResult } := rfl
@[simp] theorem passStage_wbend (s s' : State) : (passStage s s').wbend = s'.wbend := rfl
@[simp] theorem passStage_cycles (s s' : State) : (passStage s s').cycles = s'.cycles := rfl
@[simp] theorem passStage_fault (s s' : State) : (passStage s s').fault = s'.fault := rfl

@[simp] theorem loadStage_config (s s' : State) : (loadStage s s').config = s'.config := rfl
@[simp] theorem loadStage_pc (s s' : State) : (loadStage s s').pc = s'.pc := rfl
@[simp] theorem loadStage_imem (s s' : State) : (loadStage s s').imem = s'.imem := rfl
@[simp] theorem loadStage_dmem (s s' : State) : (loadStage s s').dmem = s'.dmem := rfl
@[simp] theorem loadStage_reg (s s' : State) : (loadStage s s').reg = s'.reg := rfl
@[simp] theorem loadStage_ifid (s s' : State) : (loadStage s s').ifid = s'.ifid := rfl
@[simp] theorem loadStage_idex (s s' : State) : (loadStage s s').idex = s'.idex := rfl
@[simp] theorem loadStage_exmem (s s' : State) : (loadStage s s').exmem = s'.exmem := rfl
@[simp] theorem loadStage_memwb (s s' : State) :
    (loadStage s s').memwb = { instr := s.exmem.instr, writeData := s.dmemRead s.exmem.aluResult } := rfl
@[simp] theorem loadStage_wbend (s s' : State) : (loadStage s s').wbend = s'.wbend := rfl
@[simp] theorem loadStage_cycles (s s' : State) : (loadStage s s').cycles = s'.cycles := rfl
@[simp] theorem loadStage_fault (s s' : State) : (loadStage s s').fault = s'.fault := rfl

@[simp] theorem storeStage_config (s s' : State) : (storeStage s s').config = s'.config := rfl
@[simp] theorem storeStage_pc (s s' : State) : (storeStage s s').pc = s'.pc := rfl
@[simp] theorem storeStage_imem (s s' : State) : (storeStage s s').imem = s'.imem := rfl
@[simp] theorem storeStage_dmem (s s' : State) :
    (storeStage s s').dmem = s.dmemWrite s.exmem.aluResult s.exmem.readRegB := rfl
@[simp] theorem storeStage_reg (s s' : State) : (storeStage s s').reg = s'.reg := rfl
@[simp] theorem storeStage_ifid (s s' : State) : (storeStage s s').ifid = s'.ifid := rfl
@[simp] theorem storeStage_idex (s s' : State) : (storeStage s s').idex = s'.idex := rfl
@[simp] theorem storeStage_exmem (s s' : State) : (storeStage s s').exmem = s'.exmem := rfl
@[simp] theorem storeStage_memwb (s s' : State) :
    (storeStage s s').memwb = { instr := s.exmem.instr, writeData := s.exmem.aluResult } := rfl
@[simp] theorem storeStage_wbend (s s' : State) : (storeStage s s').wbend = s'.wbend := rfl
@[simp] theorem storeStage_cycles (s s' : State) : (storeStage s s').cycles = s'.cycles := rfl
@[simp] theorem storeStage_fault (s s' : State) : (storeStage s s').fault = s'.fault := rfl

@[simp] theorem squashStage_config (s s' : State) : (squashStage s s').config = s'.config := rfl
@[simp] theorem squashStage_pc (s s' : State) : (squashStage s s').pc = s.exmem.branchTarget := rfl
@[simp] theorem squashStage_imem (s s' : State) : (squashStage s s').imem = s'.imem := rfl
@[simp] theorem squashStage_dmem (s s' : State) : (squashStage s s').dmem = s'.dmem := rfl
@[simp] theorem squashStage_reg (s s' : State) : (squashStage s s').reg = s'.reg := rfl
@[simp] theorem squashStage_ifid (s s' : State) : (squashStage s s').ifid = { s'.ifid with instr := noopWord } := rfl
@[simp] theorem squashStage_idex (s s' : State) : (squashStage s s').idex = { s'.idex with instr := noopWord } := rfl
@[simp] theorem squashStage_exmem (s s' : State) : (squashStage s s').exmem = { s'.exmem with instr := noopWord } := rfl
@[simp] theorem squashStage_memwb (s s' : State) : (squashStage s s').memwb = s'.memwb := rfl
@[simp] theorem squashStage_wbend (s s' : State) : (squashStage s s').wbend = s'.wbend := rfl
@[simp] theorem squashStage_cycles (s s' : State) : (squashStage s s').cycles = s'.cycles := rfl
@[simp] theorem squashStage_fault (s s' : State) : (squashStage s s').fault = s'.fault := rfl

@[simp] theorem writebackStage_config (dest : Option RegIdx) (s s' : State) :
    (writebackStage dest s s').config = s'.config := rfl
@[simp] theorem writebackStage_pc (dest : Option RegIdx) (s s' : State) : (writebackStage dest s s').pc = s'.pc := rfl
@[simp] theorem writebackStage_imem (dest : Option RegIdx) (s s' : State) :
    (writebackStage dest s s').imem = s'.imem := rfl
@[simp] theorem writebackStage_dmem (dest : Option RegIdx) (s s' : State) :
    (writebackStage dest s s').dmem = s'.dmem := rfl
@[simp] theorem writebackStage_reg (dest : Option RegIdx) (s s' : State) :
    (writebackStage dest s s').reg = s.reg.writeDest dest s.memwb.writeData := rfl
@[simp] theorem writebackStage_ifid (dest : Option RegIdx) (s s' : State) :
    (writebackStage dest s s').ifid = s'.ifid := rfl
@[simp] theorem writebackStage_idex (dest : Option RegIdx) (s s' : State) :
    (writebackStage dest s s').idex = s'.idex := rfl
@[simp] theorem writebackStage_exmem (dest : Option RegIdx) (s s' : State) :
    (writebackStage dest s s').exmem = s'.exmem := rfl
@[simp] theorem writebackStage_memwb (dest : Option RegIdx) (s s' : State) :
    (writebackStage dest s s').memwb = s'.memwb := rfl
@[simp] theorem writebackStage_wbend (dest : Option RegIdx) (s s' : State) :
    (writebackStage dest s s').wbend = { instr := s.memwb.instr, writeData := s.memwb.writeData } := rfl
@[simp] theorem writebackStage_cycles (dest : Option RegIdx) (s s' : State) :
    (writebackStage dest s s').cycles = s'.cycles := rfl
@[simp] theorem writebackStage_fault (dest : Option RegIdx) (s s' : State) :
    (writebackStage dest s s').fault = s'.fault := rfl

@[simp] theorem gather_config (s f d x m w : State) : (gather s f d x m w).config = s.config := rfl
@[simp] theorem gather_pc (s f d x m w : State) : (gather s f d x m w).pc = f.pc := rfl
@[simp] theorem gather_imem (s f d x m w : State) : (gather s f d x m w).imem = s.imem := rfl
@[simp] theorem gather_dmem (s f d x m w : State) : (gather s f d x m w).dmem = m.dmem := rfl
@[simp] theorem gather_reg (s f d x m w : State) : (gather s f d x m w).reg = w.reg := rfl
@[simp] theorem gather_ifid (s f d x m w : State) : (gather s f d x m w).ifid = f.ifid := rfl
@[simp] theorem gather_idex (s f d x m w : State) : (gather s f d x m w).idex = d.idex := rfl
@[simp] theorem gather_exmem (s f d x m w : State) : (gather s f d x m w).exmem = x.exmem := rfl
@[simp] theorem gather_memwb (s f d x m w : State) : (gather s f d x m w).memwb = m.memwb := rfl
@[simp] theorem gather_wbend (s f d x m w : State) : (gather s f d x m w).wbend = w.wbend := rfl
@[simp] theorem gather_cycles (s f d x m w : State) : (gather s f d x m w).cycles = s.cycles + 1 := rfl
@[simp] theorem gather_fault (s f d x m w : State) : (gather s f d x m w).fault = s.fault := rfl

@[simp] theorem overrideStall_config (x s' : State) : (overrideStall x s').config = s'.config := rfl
@[simp] theorem overrideStall_pc (x s' : State) : (overrideStall x s').pc = x.pc := rfl
@[simp] theorem overrideStall_imem (x s' : State) : (overrideStall x s').imem = s'.imem := rfl
@[simp] theorem overrideStall_dmem (x s' : State) : (overrideStall x s').dmem = s'.dmem := rfl
@[simp] theorem overrideStall_reg (x s' : State) : (overrideStall x s').reg = s'.reg := rfl
@[simp] theorem overrideStall_ifid (x s' : State) : (overrideStall x s').ifid = x.ifid := rfl
@[simp] theorem overrideStall_idex (x s' : State) :
    (overrideStall x s').idex = { s'.idex with instr := x.idex.instr } := rfl
@[simp] theorem overrideStall_exmem (x s' : State) : (overrideStall x s').exmem = s'.exmem := rfl
@[simp] theorem overrideStall_memwb (x s' : State) : (overrideStall x s').memwb = s'.memwb := rfl
@[simp] theorem overrideStall_wbend (x s' : State) : (overrideStall x s').wbend = s'.wbend := rfl
@[simp] theorem overrideStall_cycles (x s' : State) : (overrideStall x s').cycles = s'.cycles := rfl
@[simp] theorem overrideStall_fault (x s' : State) : (overrideStall x s').fault = s'.fault := rfl

@[simp] theorem overrideSquash_config (m s' : State) : (overrideSquash m s').config = s'.config := rfl
@[simp] theorem overrideSquash_pc (m s' : State) : (overrideSquash m s').pc = m.pc := rfl
@[simp] theorem overrideSquash_imem (m s' : State) : (overrideSquash m s').imem = s'.imem := rfl
@[simp] theorem overrideSquash_dmem (m s' : State) : (overrideSquash m s').dmem = s'.dmem := rfl
@[simp] theorem overrideSquash_reg (m s' : State) : (overrideSquash m s').reg = s'.reg := rfl
@[simp] theorem overrideSquash_ifid (m s' : State) :
    (overrideSquash m s').ifid = { s'.ifid with instr := m.ifid.instr } := rfl
@[simp] theorem overrideSquash_idex (m s' : State) :
    (overrideSquash m s').idex = { s'.idex with instr := m.idex.instr } := rfl
@[simp] theorem overrideSquash_exmem (m s' : State) :
    (overrideSquash m s').exmem = { s'.exmem with instr := m.exmem.instr } := rfl
@[simp] theorem overrideSquash_memwb (m s' : State) : (overrideSquash m s').memwb = s'.memwb := rfl
@[simp] theorem overrideSquash_wbend (m s' : State) : (overrideSquash m s').wbend = s'.wbend := rfl
@[simp] theorem overrideSquash_cycles (m s' : State) : (overrideSquash m s').cycles = s'.cycles := rfl
@[simp] theorem overrideSquash_fault (m s' : State) : (overrideSquash m s').fault = s'.fault := rfl

end Sys2Proof.Machine
end

