-- ==== Sys2Proof/Laws/Stages.lean ====
section
/-! SUPPORT. What the shared operation of every meaning can do: `runStages` answers a next state, the fault
or the stages' work, and each field of that work, said once (spec/42_instructions.md R200). -/

namespace Sys2Proof.Machine

/-- `runStages` always answers a next state: the fault of R245, or the stages' work. -/
theorem runStages_cases (holds : Word → Bool) (c : Control) (s : State) :
    (∃ r, faultOf holds c s = some r ∧ runStages holds c s = .next (s.raise r)) ∨
    (faultOf holds c s = none ∧ runStages holds c s = .next (stageWork holds c s)) := by
  unfold runStages
  cases h : faultOf holds c s with
  | none => exact .inr ⟨rfl, rfl⟩
  | some r => exact .inl ⟨r, rfl, rfl⟩

theorem runStages_of_fault {holds : Word → Bool} {c : Control} {s : State} {r : FaultReason}
    (h : faultOf holds c s = some r) : runStages holds c s = .next (s.raise r) := by
  simp [runStages, h]

theorem runStages_of_none {holds : Word → Bool} {c : Control} {s : State}
    (h : faultOf holds c s = none) : runStages holds c s = .next (stageWork holds c s) := by
  simp [runStages, h]

section
variable (c : Control) (m : MemOp) (s s' : State)

@[simp] theorem executeWork_config : (executeWork c s s').config = s'.config := by unfold executeWork; split <;> rfl
@[simp] theorem executeWork_imem : (executeWork c s s').imem = s'.imem := by unfold executeWork; split <;> rfl
@[simp] theorem executeWork_dmem : (executeWork c s s').dmem = s'.dmem := by unfold executeWork; split <;> rfl
@[simp] theorem executeWork_reg : (executeWork c s s').reg = s'.reg := by unfold executeWork; split <;> rfl
@[simp] theorem executeWork_memwb : (executeWork c s s').memwb = s'.memwb := by unfold executeWork; split <;> rfl
@[simp] theorem executeWork_wbend : (executeWork c s s').wbend = s'.wbend := by unfold executeWork; split <;> rfl
@[simp] theorem executeWork_cycles : (executeWork c s s').cycles = s'.cycles := by unfold executeWork; split <;> rfl
@[simp] theorem executeWork_fault : (executeWork c s s').fault = s'.fault := by unfold executeWork; split <;> rfl

/-- Execute fills `EXMEM`, whether or not it stalls (R149). -/
@[simp] theorem executeWork_exmem : (executeWork c s s').exmem = (executeStage c.alu s s').exmem := by
  unfold executeWork; split <;> rfl

@[simp] theorem memoryWork_config : (memoryWork m s s').config = s'.config := by
  unfold memoryWork; split <;> (try split) <;> rfl
@[simp] theorem memoryWork_imem : (memoryWork m s s').imem = s'.imem := by
  unfold memoryWork; split <;> (try split) <;> rfl
@[simp] theorem memoryWork_reg : (memoryWork m s s').reg = s'.reg := by
  unfold memoryWork; split <;> (try split) <;> rfl
@[simp] theorem memoryWork_wbend : (memoryWork m s s').wbend = s'.wbend := by
  unfold memoryWork; split <;> (try split) <;> rfl
@[simp] theorem memoryWork_cycles : (memoryWork m s s').cycles = s'.cycles := by
  unfold memoryWork; split <;> (try split) <;> rfl
@[simp] theorem memoryWork_fault : (memoryWork m s s').fault = s'.fault := by
  unfold memoryWork; split <;> (try split) <;> rfl

/-- Memory fills `MEMWB`: the loaded word for a load, the ALU result for every other word (R156, R158). -/
theorem memoryWork_memwb : (memoryWork m s s').memwb =
    { instr := s.exmem.instr
      writeData := if m = .load then s.dmemRead s.exmem.aluResult else s.exmem.aluResult } := by
  unfold memoryWork; split <;> (try split) <;> simp_all

/-- Only a store changes data memory (R157). -/
theorem memoryWork_dmem : (memoryWork m s s').dmem =
    if m = .store then s.dmemWrite s.exmem.aluResult s.exmem.readRegB else s'.dmem := by
  unfold memoryWork; split <;> (try split) <;> simp_all

theorem memoryWork_of_not_branch (h : m ≠ .branch) :
    (memoryWork m s s').pc = s'.pc ∧ (memoryWork m s s').ifid = s'.ifid ∧
    (memoryWork m s s').idex = s'.idex ∧ (memoryWork m s s').exmem = s'.exmem := by
  cases m <;> first | exact absurd rfl h | exact ⟨rfl, rfl, rfl, rfl⟩

theorem memoryWork_of_eq_false (h : s.exmem.eq = false) :
    (memoryWork m s s').pc = s'.pc ∧ (memoryWork m s s').ifid = s'.ifid ∧
    (memoryWork m s s').idex = s'.idex ∧ (memoryWork m s s').exmem = s'.exmem := by
  cases m <;> simp [memoryWork, h]

end

section
variable (holds : Word → Bool) (c : Control) (s : State)

@[simp] theorem stageWork_config : (stageWork holds c s).config = s.config := by
  simp only [stageWork]; repeat' split
  all_goals simp
@[simp] theorem stageWork_imem : (stageWork holds c s).imem = s.imem := by
  simp only [stageWork]; repeat' split
  all_goals simp
@[simp] theorem stageWork_cycles : (stageWork holds c s).cycles = s.cycles := by
  simp only [stageWork]; repeat' split
  all_goals simp
@[simp] theorem stageWork_fault : (stageWork holds c s).fault = s.fault := by
  simp only [stageWork]; repeat' split
  all_goals simp

/-- Registers: only the Writeback of the instruction writes one (R24, R162 to R164). -/
theorem stageWork_reg : (stageWork holds c s).reg =
    if holds s.memwb.instr then s.reg.writeDest c.dest s.memwb.writeData else s.reg := by
  simp only [stageWork]; repeat' split
  all_goals simp

theorem stageWork_wbend : (stageWork holds c s).wbend =
    if holds s.memwb.instr then { instr := s.memwb.instr, writeData := s.memwb.writeData } else s.wbend := by
  simp only [stageWork]; repeat' split
  all_goals simp

theorem stageWork_memwb : (stageWork holds c s).memwb =
    if holds s.exmem.instr then
      { instr := s.exmem.instr
        writeData := if c.mem = .load then s.dmemRead s.exmem.aluResult else s.exmem.aluResult }
    else s.memwb := by
  simp only [stageWork]; repeat' split
  all_goals simp [memoryWork_memwb, *]

/-- Data memory: only the Memory stage of a store writes it (R29, R67). -/
theorem stageWork_dmem : (stageWork holds c s).dmem =
    if holds s.exmem.instr = true ∧ c.mem = .store then s.dmemWrite s.exmem.aluResult s.exmem.readRegB
    else s.dmem := by
  simp only [stageWork]; repeat' split
  all_goals simp_all [memoryWork_dmem]

/-- The instruction in Memory does not redirect. -/
def notRedirecting : Prop := holds s.exmem.instr = true → c.mem = .branch → s.exmem.eq = false

theorem memoryWork_of_notRedirecting {s' : State} (hm : holds s.exmem.instr = true)
    (h : notRedirecting holds c s) :
    (memoryWork c.mem s s').pc = s'.pc ∧ (memoryWork c.mem s s').ifid = s'.ifid ∧
    (memoryWork c.mem s s').idex = s'.idex ∧ (memoryWork c.mem s s').exmem = s'.exmem := by
  by_cases hb : c.mem = .branch
  · exact memoryWork_of_eq_false _ s s' (h hm hb)
  · exact memoryWork_of_not_branch _ s s' hb

theorem stageWork_exmem (h : notRedirecting holds c s) : (stageWork holds c s).exmem =
    if holds s.idex.instr then (executeStage c.alu s s).exmem else s.exmem := by
  simp only [stageWork]
  split <;> try simp only [writebackStage_exmem]
  all_goals
    split
    · rename_i hm
      rw [(memoryWork_of_notRedirecting holds c s hm h).2.2.2]
      repeat' split
      all_goals simp
    · repeat' split
      all_goals simp

end

end Sys2Proof.Machine
end

