-- ==== Sys2Proof/Laws/Step.lean ====
section
/-! SUPPORT. What a step can do, said once: no step, a recorded fault, or a commit whose every field is
given (spec/41_pipeline.md R141, R142; spec/60_exceptions.md R245). -/

namespace Sys2Proof.Machine

/-- What the stages do for the word `w`. -/
def workOf (w : Word) (s : State) : State := stageWork (sameInstr w) (controlOf w) s

/-- The fault the word in `EXMEM` raises. -/
def State.oldestFault (s : State) : Option FaultReason := s.memoryFault (controlOf s.exmem.instr).mem

theorem faultOf_word (w : Word) (s : State) : faultOf (sameInstr w) (controlOf w) s =
    if sameInstr w s.exmem.instr then s.oldestFault else none := by
  unfold faultOf State.oldestFault
  split
  · rename_i h
    rw [controlOf_of_sameInstr h]
  · rfl

/-- The word in `EXMEM`: it faults, or its stages work. -/
theorem runWord_exmem (s : State) : runWord s.exmem.instr s =
    match s.oldestFault with
    | some r => .next (s.raise r)
    | none => .next (workOf s.exmem.instr s) := by
  rw [runWord_eq]
  have h := faultOf_word s.exmem.instr s
  rw [if_pos (sameInstr_self _)] at h
  cases ho : s.oldestFault with
  | some r => exact runStages_of_fault (h.trans ho)
  | none => exact runStages_of_none (h.trans ho)

/-- When the word in `EXMEM` does not fault, no word does. -/
theorem runWord_of_no_fault (w : Word) {s : State} (h : s.oldestFault = none) :
    runWord w s = .next (workOf w s) := by
  rw [runWord_eq]
  refine runStages_of_none ?_
  rw [faultOf_word, h]
  split <;> rfl

/-- The committed next snapshot. -/
def committed (s : State) : State :=
  commit s (workOf s.fetchWord s) (workOf s.ifid.instr s) (workOf s.idex.instr s) (workOf s.exmem.instr s)
    (workOf s.memwb.instr s)

/-- One cycle: the oldest word's fault, else the fetch fault, else the commit. -/
theorem cycle_eq (s : State) (hf : s.fault = none) : cycle s =
    match s.oldestFault with
    | some r => .next (s.raise r)
    | none => if s.fetchable then .next (committed s) else .next (s.raise (.fetchOutOfRange s.pc)) := by
  unfold cycle
  rw [runWord_exmem]
  cases h : s.oldestFault with
  | some r => simp [andThen]
  | none =>
    have hw : (workOf s.exmem.instr s).fault = none := by simp [workOf, hf]
    simp only [andThen, hw, runWord_of_no_fault _ h]
    rfl

/-- All a step can do. -/
theorem step_eq (s : State) : step s =
    match s.fault with
    | some r => .fault (.stuck r)
    | none =>
      if s.haltRetired then .fault .runEnded
      else match s.oldestFault with
        | some r => .next (s.raise r)
        | none => if s.fetchable then .next (committed s) else .next (s.raise (.fetchOutOfRange s.pc)) := by
  unfold step stepOf
  cases h : s.fault with
  | some r => rfl
  | none =>
    by_cases hh : s.haltRetired
    · simp [hh]
    · simp [hh, cycle_eq s h]

/-- A step that answers a next state: the state was running, and it recorded a fault or committed. -/
theorem step_cases {s t : State} (h : step s = .next t) :
    s.fault = none ∧ s.haltRetired = false ∧
    ((∃ r, t = s.raise r ∧
        (s.oldestFault = some r ∨ (s.oldestFault = none ∧ s.fetchable = false ∧ r = .fetchOutOfRange s.pc))) ∨
      (s.oldestFault = none ∧ s.fetchable = true ∧ t = committed s)) := by
  rw [step_eq] at h
  cases hf : s.fault with
  | some r => simp [hf] at h
  | none =>
    simp only [hf] at h
    cases hh : s.haltRetired with
    | true => simp [hh] at h
    | false =>
      simp only [hh, Bool.false_eq_true, if_false] at h
      refine ⟨rfl, rfl, ?_⟩
      cases ho : s.oldestFault with
      | some r =>
        simp only [ho, Host.Outcome.next.injEq] at h
        exact .inl ⟨r, h.symm, .inl rfl⟩
      | none =>
        simp only [ho] at h
        cases hp : s.fetchable with
        | true =>
          simp only [hp, if_true, Host.Outcome.next.injEq] at h
          exact .inr ⟨rfl, rfl, h.symm⟩
        | false =>
          simp only [hp, Bool.false_eq_true, if_false, Host.Outcome.next.injEq] at h
          exact .inl ⟨_, h.symm, .inr ⟨rfl, rfl, rfl⟩⟩

/-- A committing step: where it happens, and its next state. -/
theorem commits_iff (s t : State) : commits s t ↔
    s.fault = none ∧ s.haltRetired = false ∧ s.oldestFault = none ∧ s.fetchable = true ∧ t = committed s := by
  constructor
  · rintro ⟨h, hn⟩
    obtain ⟨hf, hh, ⟨r, rfl, -⟩ | ⟨ho, hp, rfl⟩⟩ := step_cases h
    · simp at hn
    · exact ⟨hf, hh, ho, hp, rfl⟩
  · rintro ⟨hf, hh, ho, hp, rfl⟩
    refine ⟨by simp [step_eq, hf, hh, ho, hp], ?_⟩
    unfold committed commit
    simp only
    repeat' split
    all_goals simp [hf]

/-! The conditions of a step in the spec's numbers. -/

theorem haltRetired_iff (s : State) : s.haltRetired = true ↔ opcode s.wbend.instr = 6 := by
  simp [State.haltRetired, opOf_iff, Op.number]

theorem haltRetired_eq_false (s : State) : s.haltRetired = false ↔ opcode s.wbend.instr ≠ 6 := by
  rw [← Bool.not_eq_true, haltRetired_iff]

theorem inRange_iff (s : State) (a : Word) :
    s.inRange a = true ↔ 0 ≤ a.toInt ∧ a.toInt < s.config.memSize := by
  simp [State.inRange]

theorem fetchable_iff (s : State) : s.fetchable = true ↔ 0 ≤ s.pc.toInt ∧ s.pc.toInt < s.config.memSize := by
  simp [State.fetchable, State.inRange]

/-- Which fault the word in `EXMEM` raises (R244). -/
theorem oldestFault_eq (s : State) : s.oldestFault =
    if s.config.unrecognizedOpcodeFaults = true ∧ opOf s.exmem.instr = none then
      some (.unrecognizedOpcode s.exmem.instr)
    else if s.config.jalrFaults = true ∧ opOf s.exmem.instr = some .jalr then
      some (.jalrUnimplemented s.exmem.instr)
    else if opOf s.exmem.instr = some .lw ∧ s.inRange s.exmem.aluResult = false then
      some (.loadOutOfRange s.exmem.aluResult)
    else if opOf s.exmem.instr = some .sw ∧ s.inRange s.exmem.aluResult = false then
      some (.storeOutOfRange s.exmem.aluResult)
    else none := by
  unfold State.oldestFault State.memoryFault controlOf
  cases opOf s.exmem.instr with
  | none => by_cases h : s.config.unrecognizedOpcodeFaults <;> simp [h]
  | some o =>
    cases o <;> simp <;> (cases h : s.inRange s.exmem.aluResult <;> simp)

/-! Runs, one cycle at a time. -/

theorem runsTo_zero (s t : State) : runsTo 0 s t ↔ s = t := by
  unfold runsTo
  show Host.Outcome.next s = .next t ↔ _
  simp

theorem runsTo_succ (k : Nat) (s t : State) : runsTo (k + 1) s t ↔ ∃ u, step s = .next u ∧ runsTo k u t := by
  unfold runsTo
  simp only [Host.Core.run]
  have h : Sys2Proof.core.step s = step s := rfl
  rw [h]
  cases step s <;> simp

/-! The control signals by opcode. -/

theorem controlOf_load (w : Word) : (controlOf w).mem = .load ↔ opOf w = some .lw := by
  unfold controlOf
  cases opOf w with
  | none => simp
  | some o => cases o <;> simp

theorem controlOf_store (w : Word) : (controlOf w).mem = .store ↔ opOf w = some .sw := by
  unfold controlOf
  cases opOf w with
  | none => simp
  | some o => cases o <;> simp

theorem controlOf_branch (w : Word) : (controlOf w).mem = .branch ↔ opOf w = some .beq := by
  unfold controlOf
  cases opOf w with
  | none => simp
  | some o => cases o <;> simp

/-- Writeback writes the register forwarding takes the value for (R99, R151). -/
theorem controlOf_dest (w : Word) : (controlOf w).dest = destOf w := by
  unfold controlOf destOf
  cases opOf w with
  | none => rfl
  | some o => cases o <;> rfl

theorem loadUse_eq (s : State) : s.loadUse = true ↔
    (controlOf s.idex.instr).mem = .load ∧ namesLoadDest s.ifid.instr s.idex.instr = true := by
  rw [controlOf_load]
  simp [State.loadUse]

theorem branchTaken_eq (s : State) : s.branchTaken = true ↔
    (controlOf s.exmem.instr).mem = .branch ∧ s.exmem.eq = true := by
  rw [controlOf_branch]
  simp [State.branchTaken]

section
variable (s : State)

/-! The overrides a stage's word brings with it, in the work done for that word. -/

theorem workOf_exmem_squashed (h : s.branchTaken = true) :
    (workOf s.exmem.instr s).pc = s.exmem.branchTarget ∧
    (workOf s.exmem.instr s).ifid.instr = noopWord ∧
    (workOf s.exmem.instr s).idex.instr = noopWord ∧
    (workOf s.exmem.instr s).exmem.instr = noopWord := by
  obtain ⟨hb, he⟩ := (branchTaken_eq s).1 h
  simp only [workOf, stageWork, sameInstr_self, if_true, hb, memoryWork, he]
  split <;> simp

theorem notRedirecting_of_not_taken (w : Word) (h : s.branchTaken = false) :
    notRedirecting (sameInstr w) (controlOf w) s := by
  intro hw hb
  rw [← controlOf_of_sameInstr hw] at hb
  by_contra he
  have := (branchTaken_eq s).2 ⟨hb, by simpa using he⟩
  simp [h] at this

/-- Without a taken branch the Memory stage of any word leaves `pc` and the younger latches. -/
theorem stageWork_young (w : Word) (h : s.branchTaken = false) :
    let s1 := if s.fetchable && sameInstr w s.fetchWord then fetchStage s s else s
    let s2 := if sameInstr w s.ifid.instr then decodeStage s s1 else s1
    let s3 := if sameInstr w s.idex.instr then executeWork (controlOf w) s s2 else s2
    (workOf w s).pc = s3.pc ∧ (workOf w s).ifid = s3.ifid ∧ (workOf w s).idex = s3.idex ∧
      (workOf w s).exmem = s3.exmem := by
  intro s1 s2 s3
  have hn := notRedirecting_of_not_taken s w h
  have hw : workOf w s =
      (if sameInstr w s.memwb.instr then
        writebackStage (controlOf w).dest s (if sameInstr w s.exmem.instr then memoryWork (controlOf w).mem s s3 else s3)
      else (if sameInstr w s.exmem.instr then memoryWork (controlOf w).mem s s3 else s3)) := rfl
  have h4 : ∀ s4 : State, s4 = (if sameInstr w s.exmem.instr then memoryWork (controlOf w).mem s s3 else s3) →
      s4.pc = s3.pc ∧ s4.ifid = s3.ifid ∧ s4.idex = s3.idex ∧ s4.exmem = s3.exmem := by
    rintro s4 rfl
    split
    · rename_i hm
      exact memoryWork_of_notRedirecting _ _ s hm hn
    · exact ⟨rfl, rfl, rfl, rfl⟩
  rw [hw]
  obtain ⟨a, b, c, d⟩ := h4 _ rfl
  split
  · exact ⟨a, b, c, d⟩
  · exact ⟨a, b, c, d⟩

theorem executeWork_of_stall (c : Control) (s' : State) (h : s.loadUse = true) (hc : c.mem = .load) :
    executeWork c s s' = executeStage c.alu s (stallStage s s') := by
  simp [executeWork, hc, ((loadUse_eq s).1 h).2]

theorem executeWork_of_no_stall (w : Word) (s' : State) (h : s.loadUse = false)
    (hw : sameInstr w s.idex.instr = true) :
    executeWork (controlOf w) s s' = executeStage (controlOf w).alu s s' := by
  unfold executeWork
  rw [if_neg]
  intro hc
  simp only [Bool.and_eq_true, decide_eq_true_eq] at hc
  have := (loadUse_eq s).2 ⟨by rw [controlOf_of_sameInstr hw]; exact hc.1, hc.2⟩
  simp [h] at this

/-- The load that stalls, in the work done for it. -/
theorem workOf_idex_stalled (hu : s.loadUse = true) (hb : s.branchTaken = false) :
    (workOf s.idex.instr s).pc = s.pc ∧ (workOf s.idex.instr s).ifid = s.ifid ∧
    (workOf s.idex.instr s).idex.instr = noopWord := by
  obtain ⟨h1, h2, h3, -⟩ := stageWork_young s s.idex.instr hb
  simp only [sameInstr_self, if_true, executeWork_of_stall s _ _ hu ((loadUse_eq s).1 hu).1] at h1 h2 h3
  exact ⟨h1, h2, by rw [h3]; simp⟩

/-- Fetch, in the work done for the fetched word. -/
theorem workOf_fetched (hu : s.loadUse = false) (hb : s.branchTaken = false) (hp : s.fetchable = true) :
    (workOf s.fetchWord s).pc = s.pc + 1#32 ∧
    (workOf s.fetchWord s).ifid = { instr := s.fetchWord, pcPlus1 := s.pc + 1#32 } := by
  obtain ⟨h1, h2, -, -⟩ := stageWork_young s s.fetchWord hb
  simp only [sameInstr_self, hp, Bool.and_self, if_true] at h1 h2
  rw [h1, h2]
  split
  · rename_i hx
    rw [executeWork_of_no_stall s _ _ hu hx]
    split <;> simp
  · split <;> simp

/-- Every field but `instr` of the decoded latch, in the work done for the word in `IFID`. -/
theorem workOf_decoded (s : State) :
    { (workOf s.ifid.instr s).idex with instr := s.ifid.instr } = (decodeStage s s).idex ∧
    (s.loadUse = false → s.branchTaken = false → (workOf s.ifid.instr s).idex = (decodeStage s s).idex) := by
  have hw : ∀ s2 : State, s2.idex = (decodeStage s s).idex → ∀ s3 : State,
      s3 = (if sameInstr s.ifid.instr s.idex.instr then executeWork (controlOf s.ifid.instr) s s2 else s2) →
      ({ s3.idex with instr := s.ifid.instr } : IDEX) = (decodeStage s s).idex ∧
      (s.loadUse = false → s3.idex = (decodeStage s s).idex) := by
    rintro s2 h2 s3 rfl
    split
    · rename_i hx
      constructor
      · unfold executeWork
        split <;> simp [h2]
      · intro hu
        rw [executeWork_of_no_stall s _ _ hu hx]
        simp [h2]
    · exact ⟨by simp [h2], fun _ => h2⟩
  have hd : ∀ s1 : State, (decodeStage s s1).idex = (decodeStage s s).idex := fun _ => rfl
  constructor
  · simp only [workOf, stageWork, sameInstr_self, if_true]
    have key := (hw _ (hd (if s.fetchable && sameInstr s.ifid.instr s.fetchWord then fetchStage s s else s)) _ rfl).1
    rw [← key]
    split <;> try simp only [writebackStage_idex]
    all_goals
      split
      · generalize controlOf s.ifid.instr = c
        cases c.mem <;> simp only [memoryWork, passStage_idex, loadStage_idex, storeStage_idex]
        split <;> simp
      · rfl
  · intro hu hb
    obtain ⟨-, -, h3, -⟩ := stageWork_young s s.ifid.instr hb
    simp only [sameInstr_self, if_true] at h3
    rw [h3]
    exact (hw _ (hd _) _ rfl).2 hu

/-- Execute, in the work done for the word in `IDEX`. -/
theorem workOf_executed (s : State) :
    { (workOf s.idex.instr s).exmem with instr := s.idex.instr } =
      (executeStage (controlOf s.idex.instr).alu s s).exmem ∧
    (s.branchTaken = false →
      (workOf s.idex.instr s).exmem = (executeStage (controlOf s.idex.instr).alu s s).exmem) := by
  constructor
  · simp only [workOf, stageWork, sameInstr_self, if_true]
    split <;> try simp only [writebackStage_exmem]
    all_goals
      split
      · generalize hc : controlOf s.idex.instr = c
        cases hm : c.mem <;> simp only [memoryWork, passStage_exmem, loadStage_exmem, storeStage_exmem,
          executeWork_exmem, executeStage_exmem]
        split <;> simp
      · simp
  · intro hb
    obtain ⟨-, -, -, h4⟩ := stageWork_young s s.idex.instr hb
    rw [h4]
    simp

/-! Every field of a committed next snapshot (R142). -/

theorem committed_config : (committed s).config = s.config := by
  unfold committed commit; simp only; repeat' split
  all_goals simp
theorem committed_imem : (committed s).imem = s.imem := by
  unfold committed commit; simp only; repeat' split
  all_goals simp
theorem committed_fault : (committed s).fault = s.fault := by
  unfold committed commit; simp only; repeat' split
  all_goals simp
theorem committed_cycles : (committed s).cycles = s.cycles + 1 := by
  unfold committed commit; simp only; repeat' split
  all_goals simp

theorem committed_reg : (committed s).reg = s.reg.writeDest (destOf s.memwb.instr) s.memwb.writeData := by
  have h : (committed s).reg = (workOf s.memwb.instr s).reg := by
    unfold committed commit; simp only; repeat' split
    all_goals simp
  rw [h]
  simp [workOf, stageWork_reg, controlOf_dest]

theorem committed_wbend : (committed s).wbend =
    { instr := s.memwb.instr, writeData := s.memwb.writeData } := by
  have h : (committed s).wbend = (workOf s.memwb.instr s).wbend := by
    unfold committed commit; simp only; repeat' split
    all_goals simp
  rw [h]
  simp [workOf, stageWork_wbend]

theorem committed_memwb : (committed s).memwb =
    { instr := s.exmem.instr
      writeData := if opOf s.exmem.instr = some .lw then s.dmemRead s.exmem.aluResult else s.exmem.aluResult } := by
  have h : (committed s).memwb = (workOf s.exmem.instr s).memwb := by
    unfold committed commit; simp only; repeat' split
    all_goals simp
  rw [h]
  simp [workOf, stageWork_memwb, controlOf_load]

theorem committed_dmem : (committed s).dmem =
    if opOf s.exmem.instr = some .sw then s.dmemWrite s.exmem.aluResult s.exmem.readRegB else s.dmem := by
  have h : (committed s).dmem = (workOf s.exmem.instr s).dmem := by
    unfold committed commit; simp only; repeat' split
    all_goals simp
  rw [h]
  simp [workOf, stageWork_dmem, controlOf_store]

/-- `EXMEM` after a commit: what Execute wrote, its word a bubble if the branch is taken (R149, R160). -/
theorem committed_exmem : (committed s).exmem =
    { (executeStage (controlOf s.idex.instr).alu s s).exmem with
      instr := if s.branchTaken then noopWord else s.idex.instr } := by
  obtain ⟨h1, h2⟩ := workOf_executed s
  cases hb : s.branchTaken with
  | true =>
    have h4 := (workOf_exmem_squashed s hb).2.2.2
    have : (committed s).exmem = { (workOf s.idex.instr s).exmem with instr := noopWord } := by
      unfold committed commit
      simp only [hb, if_true]
      split <;> simp [h4]
    rw [this, ← h1]
    rfl
  | false =>
    have : (committed s).exmem = (workOf s.idex.instr s).exmem := by
      unfold committed commit
      simp only [hb, Bool.false_eq_true, if_false]
      split <;> simp
    rw [this, h2 hb]
    rfl

/-- `IDEX` after a commit: what Decode wrote, its word a bubble on a stall or a squash (R145, R148, R160). -/
theorem committed_idex : (committed s).idex =
    { (decodeStage s s).idex with
      instr := if s.branchTaken || s.loadUse then noopWord else s.ifid.instr } := by
  obtain ⟨h1, h2⟩ := workOf_decoded s
  cases hb : s.branchTaken with
  | true =>
    have h4 := (workOf_exmem_squashed s hb).2.2.1
    have : (committed s).idex = { (workOf s.ifid.instr s).idex with instr := noopWord } := by
      unfold committed commit
      simp only [hb, if_true]
      split <;> simp [h4]
    rw [this, ← h1]
    rfl
  | false =>
    cases hu : s.loadUse with
    | true =>
      have h5 := (workOf_idex_stalled s hu hb).2.2
      have : (committed s).idex = { (workOf s.ifid.instr s).idex with instr := noopWord } := by
        unfold committed commit
        simp [hb, hu, h5]
      rw [this, ← h1]
      rfl
    | false =>
      have : (committed s).idex = (workOf s.ifid.instr s).idex := by
        unfold committed commit
        simp [hb, hu]
      rw [this, h2 hu hb]
      rfl

/-- `pc` after a commit (R26). -/
theorem committed_pc (hp : s.fetchable = true) : (committed s).pc =
    if s.branchTaken then s.exmem.branchTarget else if s.loadUse then s.pc else s.pc + 1#32 := by
  cases hb : s.branchTaken with
  | true =>
    unfold committed commit
    simp [hb, (workOf_exmem_squashed s hb).1]
  | false =>
    cases hu : s.loadUse with
    | true =>
      unfold committed commit
      simp [hb, hu, (workOf_idex_stalled s hu hb).1]
    | false =>
      unfold committed commit
      simp [hb, hu, (workOf_fetched s hu hb hp).1]

/-- `IFID` after a commit (R143, R148, R160): its word is a bubble when the branch is taken. -/
theorem committed_ifid_instr (hp : s.fetchable = true) : (committed s).ifid.instr =
    if s.branchTaken then noopWord else if s.loadUse then s.ifid.instr else s.fetchWord := by
  cases hb : s.branchTaken with
  | true =>
    unfold committed commit
    simp [hb, (workOf_exmem_squashed s hb).2.1]
  | false =>
    cases hu : s.loadUse with
    | true =>
      unfold committed commit
      simp [hb, hu, (workOf_idex_stalled s hu hb).2.1]
    | false =>
      unfold committed commit
      simp [hb, hu, (workOf_fetched s hu hb hp).2]

/-- The address that travels in `IFID` after a commit (R143, R148, R167). -/
theorem committed_ifid_pcPlus1 (hp : s.fetchable = true) : (committed s).ifid.pcPlus1 =
    if s.loadUse then s.ifid.pcPlus1 else s.pc + 1#32 := by
  have hm : ∀ (m : MemOp) (s' : State), (memoryWork m s s').ifid.pcPlus1 = s'.ifid.pcPlus1 := by
    intro m s'
    cases m <;> simp only [memoryWork, passStage_ifid, loadStage_ifid, storeStage_ifid]
    split <;> simp
  cases hu : s.loadUse with
  | true =>
    have h1 : (committed s).ifid.pcPlus1 = (workOf s.idex.instr s).ifid.pcPlus1 := by
      unfold committed commit
      simp only [hu, if_true]
      split <;> simp
    rw [h1]
    simp only [workOf, stageWork, sameInstr_self, if_true, executeWork_of_stall s _ _ hu ((loadUse_eq s).1 hu).1]
    repeat' split
    all_goals simp [hm]
  | false =>
    have h1 : (committed s).ifid.pcPlus1 = (workOf s.fetchWord s).ifid.pcPlus1 := by
      unfold committed commit
      simp only [hu, Bool.false_eq_true, if_false]
      split <;> simp
    rw [h1]
    simp only [workOf, stageWork, sameInstr_self, hp, Bool.and_self, if_true, Bool.false_eq_true, if_false]
    have hx : ∀ s2 : State, (if sameInstr s.fetchWord s.idex.instr then
        executeWork (controlOf s.fetchWord) s s2 else s2).ifid = s2.ifid := by
      intro s2
      split
      · rename_i hx
        rw [executeWork_of_no_stall s _ _ hu hx]
        simp
      · rfl
    repeat' split
    all_goals simp_all

end

end Sys2Proof.Machine
end

