-- ==== Sys2Proof/Machine/Assembly.lean ====
section
/-! DEFINITION. The assembly notation of spec/30_encoding.md R105, R106 as data: each line of its table and
the word it stands for. Programs of words are what the block reads; the notation adds no behaviour. -/

namespace Sys2Proof.Machine

/-- One line of R105's table. -/
inductive AsmLine
  | add (rA rB rD : RegIdx)
  | nor (rA rB rD : RegIdx)
  | lw (rA rB : RegIdx) (off : Int)
  | sw (rA rB : RegIdx) (off : Int)
  | beq (rA rB : RegIdx) (off : Int)
  | jalr (rA rB : RegIdx)
  | halt
  | noop
  /-- `.word n`: data, the Word `n` mod 2^32 (R106). -/
  | dotWord (n : Int)
deriving DecidableEq, Repr

/-- The word of a line (R105). -/
def AsmLine.word : AsmLine → Word
  | .add rA rB rD => encodeFields 0 rA rB (rD.setWidth 16)
  | .nor rA rB rD => encodeFields 1 rA rB (rD.setWidth 16)
  | .lw rA rB off => encodeFields 2 rA rB (offsetBits off)
  | .sw rA rB off => encodeFields 3 rA rB (offsetBits off)
  | .beq rA rB off => encodeFields 4 rA rB (offsetBits off)
  | .jalr rA rB => encodeFields 5 rA rB 0#16
  | .halt => encodeFields 6 0#3 0#3 0#16
  | .noop => encodeFields 7 0#3 0#3 0#16
  | .dotWord n => BitVec.ofInt 32 n

/-- The offset a label `l` stands for in a `beq` at address `a`: `L - (a + 1)` (R105). -/
def labelOffset (l a : Int) : Int := l - (a + 1)

/-- The image of a program, from address 0 on (R70, R105). -/
def assemble (lines : List AsmLine) : List Word := lines.map AsmLine.word

end Sys2Proof.Machine
end

