-- ==== Sys2Proof/Tests/Slice0.lean ====
section
/-! SUPPORT. Tests of the model's parts, with expected values from spec/95_test_vectors.md and the rules named,
and for every obligation with hypotheses a concrete state that meets them. -/

namespace Sys2Proof.Tests

open Sys2Proof Sys2Proof.Machine

/-! ## Helpers -/

/-- The block after reset with `MEM_SIZE = 16` and empty memories. -/
def tiny : State := State.resetWith ⟨16, false, false⟩ [] []

/-- `tiny` with registers `r1 = 5`, `r2 = 7`. -/
def tinyRegs : State := { tiny with reg := (tiny.reg.write 1#3 5#32).write 2#3 7#32 }

/-- The same word in every latch and at `pc`, the operands 5 and 7 read, and `res` in the data fields. -/
def everywhere (w res : Word) (eq : Bool) : State :=
  { tinyRegs with
    imem := [(0, w)]
    ifid := ⟨w, 3#32⟩
    idex := ⟨w, 2#32, 5#32, 7#32, imm w⟩
    exmem := ⟨w, 9#32, eq, res, 7#32⟩
    memwb := ⟨w, res⟩ }

/-- A word in `EXMEM`, with its ALU result and its flag. -/
def inMemory (w res : Word) (eq : Bool) : State := { tinyRegs with exmem := ⟨w, 9#32, eq, res, 7#32⟩ }

/-- A word in `IDEX` with the operands 5 and 7 read from `r1` and `r2`. -/
def inExecute (w : Word) : State := { tinyRegs with idex := ⟨w, 2#32, 5#32, 7#32, imm w⟩ }

/-- A check on the next state of an outcome. -/
def after (o : Host.Outcome State Fault Refusal) (p : State → Bool) : Bool :=
  match o with
  | .next t => p t
  | .fault _ => false
  | .refused _ => false

/-- A check on the next state of a committing step. -/
def afterStep (s : State) (p : State → Bool) : Bool := after (step s) fun t => decide (t.fault = none) && p t

theorem next_of_afterStep {s : State} {p : State → Bool} (h : afterStep s p = true) :
    ∃ t, step s = .next t ∧ p t = true := by
  unfold afterStep after at h
  cases hs : step s with
  | next t => rw [hs] at h; simp only [Bool.and_eq_true] at h; exact ⟨t, rfl, h.2⟩
  | fault r => rw [hs] at h; simp at h
  | refused r => rw [hs] at h; simp at h

/-- The premises of a commit, in evaluable form. -/
def canCommit (s : State) : Bool :=
  decide (s.fault = none) && !s.haltRetired && decide (s.oldestFault = none) && s.fetchable

theorem commits_of_canCommit {s : State} (h : canCommit s = true) : commits s (committed s) := by
  simp only [canCommit, Bool.and_eq_true, decide_eq_true_eq, Bool.not_eq_true'] at h
  exact (commits_iff _ _).2 ⟨h.1.1.1, h.1.1.2, h.1.2, h.2, rfl⟩

/-! ## Well-formedness: an ill-formed term for each check -/

theorem test_wf_lw_too_large : (Instr.lw 0#3 1#3 32768).wellFormed = false := by decide
theorem test_wf_lw_too_small : (Instr.lw 0#3 1#3 (-32769)).wellFormed = false := by decide
theorem test_wf_sw_too_large : (Instr.sw 0#3 1#3 32768).wellFormed = false := by decide
theorem test_wf_sw_too_small : (Instr.sw 0#3 1#3 (-32769)).wellFormed = false := by decide
theorem test_wf_beq_too_large : (Instr.beq 0#3 1#3 32768).wellFormed = false := by decide
theorem test_wf_beq_too_small : (Instr.beq 0#3 1#3 (-32769)).wellFormed = false := by decide
theorem test_wf_limits : (Instr.lw 7#3 7#3 32767).wellFormed = true ∧ (Instr.beq 7#3 7#3 (-32768)).wellFormed = true := by
  decide

/-! ## Decoding: words written out from R91 and R92 (opcode, A, B, C); V-ENC-1 to V-ENC-15, V-SRC-1 to V-SRC-6 -/

theorem test_decode_add : decode 0b0000000000_001_010_0000000000000011#32 = .ok (.add 1#3 2#3 3#16) := by rfl
theorem test_decode_nor : decode 0b0000000001_000_000_0000000000000001#32 = .ok (.nor 0#3 0#3 1#16) := by rfl
theorem test_decode_lw : decode 0b0000000010_000_001_0000000000001010#32 = .ok (.lw 0#3 1#3 10) := by rfl
theorem test_decode_lw_negative : decode 0x00BF8000#32 = .ok (.lw 7#3 7#3 (-32768)) := by rfl
theorem test_decode_sw : decode 0b0000000011_000_010_0000000000001100#32 = .ok (.sw 0#3 2#3 12) := by rfl
theorem test_decode_beq : decode 0b0000000100_000_000_1111111111111100#32 = .ok (.beq 0#3 0#3 (-4)) := by rfl
theorem test_decode_beq_largest : decode 0x011D7FFF#32 = .ok (.beq 3#3 5#3 32767) := by rfl
theorem test_decode_jalr : decode 0b0000000101_001_010_0000000000000000#32 = .ok (.jalr 1#3 2#3 0#16) := by rfl
theorem test_decode_halt : decode 0b0000000110_000_000_0000000000000000#32 = .ok (.halt 0#3 0#3 0#16) := by rfl
theorem test_decode_noop : decode noopWord = .ok (.noop 0#3 0#3 0#16) := by rfl
theorem test_decode_noop_not_canonical : decode 0x01C70000#32 = .ok (.noop 0#3 7#3 0#16) := by rfl
theorem test_decode_refuses :
    decode 0xFFFFFFFF#32 = .error (.unrecognizedOpcode 0xFFFFFFFF#32) ∧ opcode 0xFFFFFFFF#32 = -1 ∧
    decode 0x800A0001#32 = .error (.unrecognizedOpcode 0x800A0001#32) ∧ opcode 0x800A0001#32 = -512 ∧
    decode 0x7FC00000#32 = .error (.unrecognizedOpcode 0x7FC00000#32) ∧ opcode 0x7FC00000#32 = 511 :=
  ⟨rfl, rfl, rfl, rfl, rfl, rfl⟩
theorem test_imm_sign : imm 0x0000FFFF#32 = 0xFFFFFFFF#32 ∧ imm 0x00007FFF#32 = 32767#32 ∧
    imm 0x00008000#32 = 0xFFFF8000#32 := by decide
theorem test_dest_low_bits : destIndex 0xFFFF#16 = 7#3 ∧ destIndex 0x8000#16 = 0#3 := by decide
theorem test_encode : encode (.lw 7#3 7#3 (-32768)) = 0x00BF8000#32 ∧ encode (.beq 3#3 5#3 32767) = 0x011D7FFF#32 := by
  decide
theorem test_decodeTableWord : decodeTableWord 32 0x00C2000C = some (.sw 0#3 2#3 12) := by rfl
theorem test_asm : assemble [.add 1#3 2#3 3#3, .beq 0#3 0#3 (labelOffset 0 3), .dotWord (-1)] =
    [0x000A0003#32, 0x0100FFFC#32, 0xFFFFFFFF#32] := by decide

/-! ## One step of each instruction, at the stage where it acts -/

/-- R121: 5 + 7. -/
theorem test_add_execute : afterStep (inExecute 0x000A0003#32) (fun t => decide (t.exmem.aluResult = 12#32)) = true := by
  decide
/-- R163: only `fieldC[2:0]` counts, and r0 is no constant. -/
theorem test_add_writeback : afterStep { tinyRegs with memwb := ⟨0x00008000#32, 9#32⟩ }
    (fun t => decide (t.reg.read 0#3 = 9#32)) = true := by decide
/-- R122: `nor(0, 0) = -1`, with r3 and r4 both 0. -/
theorem test_nor_execute : afterStep { tiny with idex := ⟨0x005C0001#32, 2#32, 0#32, 0#32, 1#32⟩ }
    (fun t => decide (t.exmem.aluResult = 0xFFFFFFFF#32)) = true := by decide
/-- R123 with a negative offset: 5 + (-1). -/
theorem test_lw_execute : afterStep (inExecute 0x008BFFFF#32) (fun t => decide (t.exmem.aluResult = 4#32)) = true := by
  decide
/-- R156. -/
theorem test_lw_memory : afterStep { inMemory 0x0081000A#32 10#32 false with dmem := [(10, 42#32)] }
    (fun t => decide (t.memwb.writeData = 42#32)) = true := by decide
/-- R157: the store data is what `EXMEM` carries. -/
theorem test_sw_memory : afterStep (inMemory 0x00C2000C#32 12#32 false)
    (fun t => decide (t.dmem = [(12, 7#32)])) = true := by decide
/-- R72: the first address outside. -/
theorem test_sw_outside : after (step (inMemory 0x00C2000C#32 16#32 false))
    (fun t => decide (t.fault = some (.storeOutOfRange 16#32)) && decide (t.dmem = [])) = true := by decide
/-- R160: the taken branch. -/
theorem test_beq_taken : afterStep (inMemory 0x010A0004#32 9#32 true)
    (fun t => decide (t.pc = 9#32) && decide (t.ifid.instr = noopWord)) = true := by decide
/-- R124, R126: target 2 - 4 and unequal operands. -/
theorem test_beq_execute : afterStep (inExecute 0x010AFFFC#32)
    (fun t => decide (t.exmem.branchTarget = 0xFFFFFFFE#32) && decide (t.exmem.eq = false)) = true := by decide
/-- R206: inert by default. -/
theorem test_jalr_inert : afterStep (inMemory 0x014A0000#32 0#32 true)
    (fun t => decide (t.pc = 1#32) && decide (t.reg = tinyRegs.reg)) = true := by decide
/-- R206 with the parameter. -/
theorem test_jalr_fault : after (step { inMemory 0x014A0000#32 0#32 true with config := ⟨16, false, true⟩ })
    (fun t => decide (t.fault = some (.jalrUnimplemented 0x014A0000#32)) && decide (t.pc = 0#32)) = true := by decide
/-- R275. -/
theorem test_halt_retires : afterStep { tiny with memwb := ⟨0x01800000#32, 0#32⟩ } (fun t => t.isFinal) = true := by decide
/-- R208: a `noop` that is not canonical passes unchanged. -/
theorem test_noop_passes : afterStep { tiny with memwb := ⟨0x01C70000#32, 3#32⟩ }
    (fun t => decide (t.wbend.instr = 0x01C70000#32) && decide (t.reg = tiny.reg)) = true := by decide
/-- R209. -/
theorem test_unrecognized_inert : afterStep (inMemory 0x02000000#32 0#32 true)
    (fun t => decide (t.memwb.instr = 0x02000000#32) && decide (t.pc = 1#32)) = true := by decide
/-- R147, R148 (V-SRC-8): the word in `IFID` names the load's destination. -/
theorem test_stall : afterStep { inExecute 0x00810006#32 with ifid := ⟨0x00080002#32, 2#32⟩ }
    (fun t => decide (t.pc = 0#32) && decide (t.idex.instr = noopWord) && decide (t.ifid.instr = 0x00080002#32)) = true := by
  decide
/-- R153: `EXMEM` before `MEMWB` before `WBEND`. -/
theorem test_forward_nearest :
    ({ inMemory 0x00000001#32 11#32 false with memwb := ⟨0x00000001#32, 12#32⟩, wbend := ⟨0x00000001#32, 13#32⟩ } : State).forward
      1#3 5#32 = 11#32 := by decide
/-- The host's interface: the next step after reset fetches and runs the placed word. -/
theorem test_withFetchWord : afterStep (State.reset.withFetchWord 32 0x000A0003)
    (fun t => decide (t.ifid = ⟨0x000A0003#32, 1#32⟩)) = true := by decide

/-! ## Witnesses: a state and operands that meet an obligation's hypotheses, clause by clause -/

theorem witness_EncodedFieldsAreReadBack : (7 : Nat) < 8 ∧ (-32768 : Int) ≤ -32768 ∧ (32767 : Int) ≤ 32767 := by decide
theorem witness_DecodeOfEncode : (Instr.sw 7#3 0#3 (-32768)).wellFormed = true ∧ (Instr.beq 1#3 2#3 32767).wellFormed = true := by
  decide
theorem witness_EncodeOfDecode : decode 0x00FF8000#32 = .ok (.sw 7#3 7#3 (-32768)) := by rfl
theorem witness_ImmediateIsLatched : commits tinyRegs (committed tinyRegs) := commits_of_canCommit (by decide)

theorem witness_AddRuns : let s := everywhere 0x000A0003#32 12#32 false
    decode s.idex.instr = .ok (.add 1#3 2#3 3#16) ∧ decode s.exmem.instr = .ok (.add 1#3 2#3 3#16) ∧
    decode s.memwb.instr = .ok (.add 1#3 2#3 3#16) := ⟨rfl, rfl, rfl⟩
theorem witness_NorRuns : let s := everywhere 0x004A0007#32 12#32 false
    decode s.idex.instr = .ok (.nor 1#3 2#3 7#16) ∧ decode s.exmem.instr = .ok (.nor 1#3 2#3 7#16) ∧
    decode s.memwb.instr = .ok (.nor 1#3 2#3 7#16) := ⟨rfl, rfl, rfl⟩
/-- At the last address inside; the word in `IFID` names the destination `r2` too. -/
theorem witness_LwRuns : let s := everywhere 0x0092000A#32 15#32 false
    decode s.idex.instr = .ok (.lw 2#3 2#3 10) ∧ decode s.exmem.instr = .ok (.lw 2#3 2#3 10) ∧
    decode s.memwb.instr = .ok (.lw 2#3 2#3 10) ∧ s.inRange s.exmem.aluResult = true ∧ fieldA s.ifid.instr = 2#3 :=
  ⟨rfl, rfl, rfl, by decide, by decide⟩
theorem witness_SwRuns : let s := everywhere 0x00CA000A#32 15#32 false
    decode s.idex.instr = .ok (.sw 1#3 2#3 10) ∧ decode s.exmem.instr = .ok (.sw 1#3 2#3 10) ∧
    decode s.memwb.instr = .ok (.sw 1#3 2#3 10) ∧ s.inRange s.exmem.aluResult = true ∧ s.dmem.wf = true :=
  ⟨rfl, rfl, rfl, by decide, by decide⟩
/-- Taken: the clauses of Memory with `eq` and of Writeback. -/
theorem witness_BeqRuns_taken : let s := everywhere 0x010A0004#32 0#32 true
    decode s.exmem.instr = .ok (.beq 1#3 2#3 4) ∧ s.exmem.eq = true ∧ decode s.memwb.instr = .ok (.beq 1#3 2#3 4) :=
  ⟨rfl, rfl, rfl⟩
/-- Not taken: the clause of Execute, and of Memory with another word at `pc`. -/
theorem witness_BeqRuns_not_taken : let s := { everywhere 0x010A0004#32 0#32 false with imem := [] }
    decode s.idex.instr = .ok (.beq 1#3 2#3 4) ∧ s.exmem.eq = false ∧ decode s.exmem.instr = .ok (.beq 1#3 2#3 4) ∧
    decode s.fetchWord ≠ .ok (.beq 1#3 2#3 4) :=
  ⟨rfl, rfl, rfl, by rw [show decode _ = .ok (.add 0#3 0#3 0#16) from rfl]; simp⟩
theorem witness_JalrRuns : let s := everywhere 0x014A0000#32 0#32 false
    decode s.idex.instr = .ok (.jalr 1#3 2#3 0#16) ∧ decode s.exmem.instr = .ok (.jalr 1#3 2#3 0#16) ∧
    decode s.memwb.instr = .ok (.jalr 1#3 2#3 0#16) ∧ s.config.jalrFaults = false := ⟨rfl, rfl, rfl, rfl⟩
theorem witness_HaltRuns : let s := everywhere 0x01800000#32 0#32 false
    decode s.idex.instr = .ok (.halt 0#3 0#3 0#16) ∧ decode s.exmem.instr = .ok (.halt 0#3 0#3 0#16) ∧
    decode s.memwb.instr = .ok (.halt 0#3 0#3 0#16) ∧ s.fault = none := ⟨rfl, rfl, rfl, rfl⟩
theorem witness_NoopRuns : let s := everywhere 0x01C70000#32 0#32 false
    decode s.idex.instr = .ok (.noop 0#3 7#3 0#16) ∧ decode s.exmem.instr = .ok (.noop 0#3 7#3 0#16) ∧
    decode s.memwb.instr = .ok (.noop 0#3 7#3 0#16) := ⟨rfl, rfl, rfl⟩
theorem witness_UnrecognizedRuns : let s := everywhere 0x02000000#32 0#32 false
    7 < opcode 0x02000000#32 ∧ opcode 0xFFFFFFFF#32 < 0 ∧ s.exmem.instr = 0x02000000#32 ∧ s.idex.instr = 0x02000000#32 ∧
    s.memwb.instr = 0x02000000#32 ∧ s.config.unrecognizedOpcodeFaults = false :=
  ⟨by decide, by decide, rfl, rfl, rfl, rfl⟩
theorem witness_FetchedAndDecoded : let s := everywhere 0x000A0003#32 12#32 false
    s.fault = none ∧ s.loadUse = false ∧ s.branchTaken = false ∧ s.inRange s.pc = true ∧
    decode s.fetchWord = .ok (.add 1#3 2#3 3#16) ∧ decode s.ifid.instr = .ok (.add 1#3 2#3 3#16) ∧
    after (exec (.add 1#3 2#3 3#16) s) (fun t => decide (t.fault = none)) = true :=
  ⟨rfl, by decide, by decide, by decide, rfl, rfl, by decide⟩
/-- The first address above and the first below the range. -/
theorem witness_LwSwAndJalrFault : let s := inMemory 0x0092000A#32 16#32 false
    let u := inMemory 0x00CA000A#32 0xFFFFFFFF#32 false
    let j := { inMemory 0x014A0000#32 0#32 false with config := ⟨16, false, true⟩ }
    decode s.exmem.instr = .ok (.lw 2#3 2#3 10) ∧ s.inRange s.exmem.aluResult = false ∧
    decode u.exmem.instr = .ok (.sw 1#3 2#3 10) ∧ u.inRange u.exmem.aluResult = false ∧
    decode j.exmem.instr = .ok (.jalr 1#3 2#3 0#16) ∧ j.config.jalrFaults = true :=
  ⟨rfl, by decide, rfl, by decide, rfl, rfl⟩

/-- Every meaning answers a next state, here with its word in every stage and then in none (the frames' hypotheses). -/
theorem witness_AddAndNorFrame :
    after (exec (.add 1#3 2#3 3#16) (everywhere 0x000A0003#32 12#32 false)) (fun _ => true) = true ∧
    after (exec (.nor 1#3 2#3 3#16) tiny) (fun _ => true) = true ∧ (0#3 : RegIdx) ≠ (3#16).extractLsb' 0 3 := by decide
theorem witness_LwFrame :
    after (exec (.lw 2#3 2#3 10) (everywhere 0x0092000A#32 15#32 false)) (fun _ => true) = true ∧
    after (exec (.lw 2#3 2#3 10) (everywhere 0x0092000A#32 16#32 false)) (fun t => decide (t.fault ≠ none)) = true ∧
    after (exec (.lw 2#3 2#3 10) tiny) (fun _ => true) = true := by decide
theorem witness_SwFrame : tiny.dmem.wf = true ∧
    after (exec (.sw 1#3 2#3 10) (everywhere 0x00CA000A#32 15#32 false)) (fun t => decide (t.dmem.read 15 = 7#32)) = true ∧
    after (exec (.sw 1#3 2#3 10) (everywhere 0x00CA000A#32 16#32 false)) (fun t => decide (t.fault ≠ none)) = true ∧
    after (exec (.sw 1#3 2#3 10) tiny) (fun _ => true) = true := by decide
theorem witness_BeqJalrHaltAndNoopFrame :
    after (exec (.beq 1#3 2#3 4) (everywhere 0x010A0004#32 0#32 false)) (fun _ => true) = true ∧
    after (exec (.beq 1#3 2#3 4) (everywhere 0x010A0004#32 0#32 true)) (fun t => decide (t.pc = 9#32)) = true ∧
    after (exec (.jalr 1#3 2#3 0#16) { tiny with exmem := ⟨0x014A0000#32, 0#32, false, 0#32, 0#32⟩, config := ⟨16, false, true⟩ })
      (fun t => decide (t.fault ≠ none)) = true ∧
    after (exec (.halt 0#3 0#3 0#16) tiny) (fun _ => true) = true ∧
    after (exec (.noop 0#3 7#3 0#16) tiny) (fun _ => true) = true := by decide

theorem witness_StepRunsTheDecodedInstructions : let s := everywhere 0x0092000A#32 15#32 false
    s.fault = none ∧ opOf s.wbend.instr ≠ some .halt ∧ s.inRange s.pc = true ∧ s.loadUse = true ∧
    decode s.fetchWord = .ok (.lw 2#3 2#3 10) ∧ decode s.ifid.instr = .ok (.lw 2#3 2#3 10) ∧
    decode s.idex.instr = .ok (.lw 2#3 2#3 10) ∧ decode s.exmem.instr = .ok (.lw 2#3 2#3 10) ∧
    decode s.memwb.instr = .ok (.lw 2#3 2#3 10) ∧
    after (exec (.lw 2#3 2#3 10) s) (fun t => decide (t.fault = none)) = true :=
  ⟨rfl, by decide, by decide, by decide, rfl, rfl, rfl, rfl, rfl, by decide⟩
theorem witness_StepIsThePseudocode : tiny.fault = none ∧ opcode tiny.wbend.instr ≠ 6 := by decide
theorem witness_StepExists : (tiny.raise (.fetchOutOfRange 0#32)).fault = some (.fetchOutOfRange 0#32) ∧
    (let s := { tiny with wbend := ⟨0x01800000#32, 0#32⟩ }; s.fault = none ∧ opcode s.wbend.instr = 6) := by decide
theorem witness_FaultingCycle : after (step { tiny with pc := 16#32 })
    (fun t => decide (t.fault = some (.fetchOutOfRange 16#32))) = true := by decide
theorem witness_FaultsInPriorityOrder_unrecognized :
    let s := { inMemory 0x02000000#32 0#32 false with config := ⟨16, true, false⟩ }
    s.fault = none ∧ opcode s.wbend.instr ≠ 6 ∧ s.config.unrecognizedOpcodeFaults = true ∧ 7 < opcode s.exmem.instr := by
  decide
theorem witness_FaultsInPriorityOrder_jalr :
    let s := { inMemory 0x014A0000#32 0#32 false with config := ⟨16, false, true⟩ }
    s.fault = none ∧ opcode s.wbend.instr ≠ 6 ∧ s.config.jalrFaults = true ∧ opcode s.exmem.instr = 5 := by decide
theorem witness_FaultsInPriorityOrder_memory :
    let s := inMemory 0x0092000A#32 16#32 false
    let u := inMemory 0x00CA000A#32 0xFFFFFFFF#32 false
    s.fault = none ∧ opcode s.wbend.instr ≠ 6 ∧ opcode s.exmem.instr = 2 ∧ ¬ (s.exmem.aluResult.toInt < s.config.memSize) ∧
    opcode u.exmem.instr = 3 ∧ ¬ (0 ≤ u.exmem.aluResult.toInt) := by decide
/-- The premises of the last two clauses: a load at the last address inside, with `pc` just outside, and at 15. -/
theorem witness_FaultsInPriorityOrder_fetch :
    let s := { inMemory 0x0092000A#32 15#32 false with pc := 16#32 }
    let u := { inMemory 0x0092000A#32 15#32 false with pc := 15#32 }
    0 ≤ opcode s.exmem.instr ∧ opcode s.exmem.instr ≤ 7 ∧ s.config.jalrFaults = false ∧ s.exmem.aluResult.toInt < s.config.memSize ∧
    ¬ (s.pc.toInt < s.config.memSize) ∧ 0 ≤ u.pc.toInt ∧ u.pc.toInt < u.config.memSize := by decide
theorem witness_CyclesCounts : afterStep tiny (fun t => decide (t.cycles = 1)) = true ∧
    after (step { tiny with pc := 16#32 }) (fun t => decide (t.fault ≠ none)) = true := by decide
/-- A taken branch, a stall and neither, each committing. -/
theorem witness_PcChanges :
    let b := inMemory 0x010A0004#32 0#32 true
    let u := { inExecute 0x00810006#32 with ifid := ⟨0x00080002#32, 2#32⟩ }
    canCommit b = true ∧ b.branchTaken = true ∧ canCommit u = true ∧ u.branchTaken = false ∧ u.loadUse = true ∧
    canCommit tiny = true ∧ tiny.branchTaken = false ∧ tiny.loadUse = false := by decide
/-- Neither, a stall, and a squash together with a stall. -/
theorem witness_FetchFills :
    let u := { inExecute 0x00810006#32 with ifid := ⟨0x00080002#32, 2#32⟩ }
    let b := { u with exmem := ⟨0x010A0004#32, 9#32, true, 9#32, 7#32⟩ }
    canCommit tiny = true ∧ tiny.loadUse = false ∧ tiny.branchTaken = false ∧
    canCommit u = true ∧ u.loadUse = true ∧ u.branchTaken = false ∧
    canCommit b = true ∧ b.branchTaken = true ∧ b.loadUse = true := by decide
theorem witness_DecodeReads : commits (everywhere 0x000A0003#32 12#32 false) (committed (everywhere 0x000A0003#32 12#32 false)) :=
  commits_of_canCommit (by decide)
/-- A load in `IDEX` behind which the word in `IFID` names its destination as field A, and as field B. -/
theorem witness_LoadUseStall :
    let u := { inExecute 0x00810006#32 with ifid := ⟨0x00080002#32, 2#32⟩ }
    let v := { inExecute 0x00810006#32 with ifid := ⟨0x00010002#32, 2#32⟩ }
    canCommit u = true ∧ u.branchTaken = false ∧ opcode u.idex.instr = 2 ∧ fieldA u.ifid.instr = fieldB u.idex.instr ∧
    canCommit v = true ∧ v.branchTaken = false ∧ fieldB v.ifid.instr = fieldB v.idex.instr := by decide
theorem witness_TakenBranch : let b := inMemory 0x010A0004#32 0#32 true
    canCommit b = true ∧ opcode b.exmem.instr = 4 ∧ b.exmem.eq = true := by decide
/-- A `beq` in `IDEX`; a word in `EXMEM` that is no `beq`; a `beq` in `EXMEM` that is not taken. -/
theorem witness_ExecuteWrites : let s := inExecute 0x010A0004#32
    let b := inMemory 0x010A0004#32 9#32 false
    canCommit s = true ∧ opcode s.idex.instr = 4 ∧ opcode s.exmem.instr ≠ 4 ∧ s.branchTaken = false ∧
    canCommit b = true ∧ opcode b.exmem.instr = 4 ∧ b.branchTaken = false := by decide
/-- One state per clause, by the opcode in `IDEX`. -/
theorem witness_AluResultByOpcode :
    (canCommit (inExecute 0x000A0003#32) = true ∧ opcode (inExecute 0x000A0003#32).idex.instr = 0) ∧
    (canCommit (inExecute 0x004A0003#32) = true ∧ opcode (inExecute 0x004A0003#32).idex.instr = 1) ∧
    (canCommit (inExecute 0x008A0003#32) = true ∧ opcode (inExecute 0x008A0003#32).idex.instr = 2) ∧
    (canCommit (inExecute 0x00CA0003#32) = true ∧ opcode (inExecute 0x00CA0003#32).idex.instr = 3) ∧
    (canCommit (inExecute 0x010A0003#32) = true ∧ opcode (inExecute 0x010A0003#32).idex.instr = 4) := by decide
theorem witness_NearestWriter :
    let e := inMemory 0x000A0003#32 11#32 false
    let m := { tiny with memwb := ⟨0x00830003#32, 12#32⟩ }
    writerByNumber (opcode e.exmem.instr) = true ∧ destByNumber e.exmem.instr = 3#3 ∧
    writerByNumber (opcode m.exmem.instr) = false ∧ writerByNumber (opcode m.memwb.instr) = true ∧
    destByNumber m.memwb.instr = 3#3 ∧ writerByNumber (opcode m.wbend.instr) = false ∧
    (let w := { tiny with wbend := ⟨0x00400003#32, 13#32⟩ };
      writerByNumber (opcode w.exmem.instr) = false ∧ writerByNumber (opcode w.memwb.instr) = false ∧
      writerByNumber (opcode w.wbend.instr) = true ∧ destByNumber w.wbend.instr = 3#3) := by decide
theorem witness_MemoryStage :
    (canCommit (inMemory 0x0092000A#32 15#32 false) = true ∧ opcode (inMemory 0x0092000A#32 15#32 false).exmem.instr = 2) ∧
    (canCommit (inMemory 0x00CA000A#32 0#32 false) = true ∧ opcode (inMemory 0x00CA000A#32 0#32 false).exmem.instr = 3) ∧
    (canCommit (inMemory 0x010A0004#32 99#32 false) = true ∧ opcode (inMemory 0x010A0004#32 99#32 false).exmem.instr = 4) ∧
    tinyRegs.dmem.wf = true := by decide
/-- One state per clause, by the opcode in `MEMWB`, with a register that changes; the same states witness the
statement about the destination field of `add` and `nor`. -/
theorem witness_Writeback :
    (∀ w ∈ [0x0092000A#32, 0x000A0003#32, 0x004A0003#32, 0x00CA000A#32, 0xFFFFFFFF#32],
      canCommit { tiny with memwb := ⟨w, 1#32⟩ } = true) ∧
    opcode 0x0092000A#32 = 2 ∧ opcode 0x000A0003#32 = 0 ∧ opcode 0x004A0003#32 = 1 ∧ opcode 0x00CA000A#32 = 3 ∧
    opcode 0xFFFFFFFF#32 = -1 ∧
    afterStep { tiny with memwb := ⟨0x000A0003#32, 1#32⟩ } (fun t => decide (t.reg.read 3#3 ≠ tiny.reg.read 3#3)) = true := by
  refine ⟨?_, by decide, by decide, by decide, by decide, by decide, by decide⟩
  intro w hw
  fin_cases hw <;> decide
theorem witness_StoresAreNeverSeen : commits tiny (committed tiny) ∧
    commits { tiny with dmem := [(0, 1#32)] } (committed { tiny with dmem := [(0, 1#32)] }) ∧ runsTo 0 tiny tiny :=
  ⟨commits_of_canCommit (by decide), commits_of_canCommit (by decide), (runsTo_zero _ _).2 rfl⟩
theorem witness_RunOfUnfaultedCycles : runsTo 1 tiny (committed tiny) ∧ (committed tiny).fault = none := by
  obtain ⟨h, hf⟩ := commits_of_canCommit (s := tiny) (by decide)
  exact ⟨(runsTo_succ _ _ _).2 ⟨_, h, (runsTo_zero _ _).2 rfl⟩, hf⟩
/-- An image that just fits the smallest memory. -/
theorem witness_Boot : (Config.mk 1 false false).valid = true ∧ [7#32].length ≤ (Config.mk 1 false false).memSize := by decide
theorem witness_ClockIsIgnored : ({ tiny with wbend := ⟨0x01800000#32, 0#32⟩ } : State).halted = true ∧
    (tiny.raise (.fetchOutOfRange 0#32)).fault ≠ none ∧ tiny.halted = false ∧ tiny.fault = none := by decide
/-- A store into a memory in order, at the last address. -/
theorem witness_MemoriesInOrder : (inMemory 0x00CA000A#32 15#32 false).memoriesOk = true ∧
    afterStep (inMemory 0x00CA000A#32 15#32 false) (fun t => decide (t.dmem = [(15, 7#32)])) = true := by decide
/-- A load in `IDEX` with a word that names its destination right behind it. -/
theorem witness_LatchesInAgreement : let u := { inExecute 0x00810006#32 with ifid := ⟨0x00080002#32, 2#32⟩ }
    u.noAddressForwarded = true ∧ u.latchesAgree = true ∧
    afterStep u (fun t => decide (opOf t.exmem.instr = some .lw)) = true := by decide
theorem witness_LoadAddress :
    let s := { inMemory 0x00810006#32 6#32 false with idex := ⟨0x000A0003#32 + 0x00080000#32, 2#32, 5#32, 7#32, 3#32⟩ }
    s.noAddressForwarded = true ∧ opcode s.exmem.instr = 2 ∧ s.idex.instr ≠ 0x01C00000#32 := by decide
/-- Two different states that agree but for a bubble's fields. -/
theorem witness_BubbleFields : let s' := { tiny with exmem := ⟨noopWord, 9#32, true, 3#32, 4#32⟩ }
    tiny.sameButBubbles s' = true ∧ tiny ≠ s' ∧ afterStep tiny (fun _ => true) = true := by decide
/-- Three commits behind an `add`, a `nor`, a `lw`, a `sw` in `IDEX`. -/
theorem witness_ReachRegisterAndMemory :
    (∀ w ∈ [0x000A0003#32, 0x004A0003#32, 0x008A0003#32, 0x00CA0003#32],
      let s := inExecute w
      canCommit s = true ∧ s.branchTaken = false ∧
      afterStep s (fun s1 => canCommit s1 && s1.dmem.wf && afterStep s1 canCommit) = true) ∧
    opcode (inExecute 0x000A0003#32).idex.instr = 0 ∧ opcode (inExecute 0x004A0003#32).idex.instr = 1 ∧
    opcode (inExecute 0x008A0003#32).idex.instr = 2 ∧ opcode (inExecute 0x00CA0003#32).idex.instr = 3 := by
  refine ⟨?_, by decide, by decide, by decide, by decide⟩
  intro w hw
  fin_cases hw <;> decide
/-- Two commits behind a `beq` with unequal and with equal operands. -/
theorem witness_BeqIsDecided :
    (∀ w ∈ [0x010A0003#32, 0x01090003#32],
      let s := inExecute w
      canCommit s = true ∧ s.branchTaken = false ∧ opcode s.idex.instr = 4 ∧ afterStep s canCommit = true) ∧
    (inExecute 0x010A0003#32).operandA ≠ (inExecute 0x010A0003#32).operandB ∧
    (let s := { tiny with idex := ⟨0x010A0003#32, 2#32, 0#32, 0#32, 3#32⟩ };
      s.operandA = s.operandB ∧ canCommit s = true ∧ afterStep s canCommit = true) := by
  refine ⟨?_, by decide, by decide⟩
  intro w hw
  fin_cases hw <;> decide
/-- Five commits from `tiny`. -/
theorem witness_FetchedWordRetires :
    afterStep tiny (fun a => !a.loadUse && !a.branchTaken &&
      afterStep a (fun b => !b.branchTaken && afterStep b (fun c => afterStep c canCommit))) = true ∧
    tiny.loadUse = false ∧ tiny.branchTaken = false := by decide
/-- V-SRC-4: the program `[halt]` ends normally, after five cycles with `pc = 5`. -/
theorem witness_FinishedRun : let s := State.resetWith ⟨16, false, false⟩ [(0, 0x01800000#32)] [(0, 0x01800000#32)]
    ∃ t, finishesIn s t ∧ t.cycles = 5 ∧ t.pc = 5#32 := by
  intro s
  obtain ⟨t1, h1, g1⟩ := next_of_afterStep (s := s) (p := fun a => afterStep a fun b => afterStep b fun c =>
    afterStep c fun d => afterStep d fun t => t.isFinal && decide (t.cycles = 5) && decide (t.pc = 5#32)) (by decide)
  obtain ⟨t2, h2, g2⟩ := next_of_afterStep g1
  obtain ⟨t3, h3, g3⟩ := next_of_afterStep g2
  obtain ⟨t4, h4, g4⟩ := next_of_afterStep g3
  obtain ⟨t5, h5, g5⟩ := next_of_afterStep g4
  simp only [Bool.and_eq_true, decide_eq_true_eq] at g5
  exact ⟨t5, ⟨g5.1.1, 5, (runsTo_succ _ _ _).2 ⟨_, h1, (runsTo_succ _ _ _).2 ⟨_, h2, (runsTo_succ _ _ _).2 ⟨_, h3,
    (runsTo_succ _ _ _).2 ⟨_, h4, (runsTo_succ _ _ _).2 ⟨_, h5, (runsTo_zero _ _).2 rfl⟩⟩⟩⟩⟩⟩, g5.1.2, g5.2⟩

end Sys2Proof.Tests
end

/-! The statements of spec/10_state.md: what a step keeps of the state's invariants, and how `pc`, the registers
and `cycles` change. Every proof takes a step apart by `step_cases` or `commits_iff` and reads the fields of the
next snapshot off the `committed_` lemmas. -/

namespace Sys2Proof.Machine

/-! ## Memories in order (R28, R29, R61, R67) -/

theorem State.memoriesOk_iff (s : State) : s.memoriesOk = true ↔
    s.config.valid = true ∧ s.imem.wf = true ∧ s.dmem.wf = true ∧
      s.imem.within s.config.memSize = true ∧ s.dmem.within s.config.memSize = true := by
  simp [State.memoriesOk, and_assoc]

/-- An address in range is a place below `MEM_SIZE` (R61). -/
theorem State.addressOf_lt_of_inRange {s : State} {a : Word} (h : s.inRange a = true) :
    addressOf a < s.config.memSize := by
  obtain ⟨hnonneg, hlt⟩ := (inRange_iff s a).1 h
  unfold addressOf
  rw [BitVec.toInt_eq_toNat_cond] at hnonneg hlt
  split at hlt <;> omega

/-- A store that does not fault has its address in range (R72). -/
theorem State.inRange_of_store {s : State} (hw : opOf s.exmem.instr = some .sw) (ho : s.oldestFault = none) :
    s.inRange s.exmem.aluResult = true := by
  simpa [oldestFault_eq, hw] using ho

/-- The one write to data memory keeps it in order (R67). -/
theorem committed_dmem_ok {s : State} (ho : s.oldestFault = none) (hwf : s.dmem.wf = true)
    (hin : s.dmem.within s.config.memSize = true) :
    (committed s).dmem.wf = true ∧ (committed s).dmem.within s.config.memSize = true := by
  rw [committed_dmem]
  split
  · rename_i hw
    exact ⟨Memory.wf_write _ _ hwf,
      Memory.within_write _ (State.addressOf_lt_of_inRange (State.inRange_of_store hw ho)) hin⟩
  · exact ⟨hwf, hin⟩

/-- Settles O44: only a store writes, in canonical form and in range. -/
theorem stepKeepsTheMemoriesInOrder : Obligations.StepKeepsTheMemoriesInOrder := by
  unfold Obligations.StepKeepsTheMemoriesInOrder
  intro s t hok hstep
  obtain ⟨-, -, ⟨r, rfl, -⟩ | ⟨ho, -, rfl⟩⟩ := step_cases hstep
  · exact hok
  · obtain ⟨hvalid, himem, hdmem, hiin, hdin⟩ := (State.memoriesOk_iff s).1 hok
    obtain ⟨hwf, hin⟩ := committed_dmem_ok ho hdmem hdin
    rw [State.memoriesOk_iff, committed_config, committed_imem]
    exact ⟨hvalid, himem, hwf, hiin, hin⟩

/-! ## Latches in agreement (R35, R96, R125, R127, R155) -/

theorem State.noAddressForwarded_iff (s : State) : s.noAddressForwarded = true ↔
    (opOf s.exmem.instr = some .lw →
      s.idex.instr = noopWord ∨ namesLoadDest s.idex.instr s.exmem.instr = false) := by
  unfold State.noAddressForwarded
  split <;> simp_all

theorem State.latchesAgree_iff (s : State) : s.latchesAgree = true ↔
    (opOf s.idex.instr = some .noop ∨ s.idex.offset = imm s.idex.instr) ∧
    (opOf s.exmem.instr = some .beq → s.exmem.aluResult = s.exmem.branchTarget) ∧
    (opOf s.exmem.instr = some .jalr ∨ opOf s.exmem.instr = some .halt ∨ opOf s.exmem.instr = none →
      s.exmem.aluResult = 0#32) := by
  simp [State.latchesAgree, and_assoc, imp_iff_not_or]

/-- A word that moves on behind a load does not name its destination, or the stall would have replaced it (R148). -/
theorem committed_noAddressForwarded (s : State) : (committed s).noAddressForwarded = true := by
  rw [State.noAddressForwarded_iff, committed_exmem, committed_idex]
  cases hb : s.branchTaken with
  | true => simp [opOf_noopWord]
  | false =>
    cases hu : s.loadUse with
    | true => simp
    | false =>
      intro hlw
      right
      simpa [State.loadUse, show opOf s.idex.instr = some .lw by simpa using hlw] using hu

/-- Decode writes the offset of the word it writes (R96, R145). -/
theorem committed_offset_agrees (s : State) :
    opOf (committed s).idex.instr = some .noop ∨
      (committed s).idex.offset = imm (committed s).idex.instr := by
  rw [committed_idex]
  split
  · exact .inl opOf_noopWord
  · exact .inr rfl

/-- Execute writes the ALU result of the word it writes, unless the squash makes it a bubble (R149, R160). -/
theorem committed_exmem_word (s : State) :
    opOf (committed s).exmem.instr = some .noop ∨
      ((committed s).exmem.instr = s.idex.instr ∧
        (committed s).exmem.aluResult =
          alu (controlOf s.idex.instr).alu s.operandA s.operandB s.idex.offset s.idex.pcPlus1) := by
  rw [committed_exmem]
  split
  · exact .inl opOf_noopWord
  · exact .inr ⟨rfl, rfl⟩

theorem committed_branchTarget (s : State) :
    (committed s).exmem.branchTarget = s.idex.offset + s.idex.pcPlus1 := by
  rw [committed_exmem]
  rfl

theorem controlOf_alu_of_beq {w : Word} (h : opOf w = some .beq) : (controlOf w).alu = .target := by
  simp [controlOf, h]

/-- The ALU result of an inert word is 0 (R125, D10). -/
theorem controlOf_alu_of_inert {w : Word}
    (h : opOf w = some .jalr ∨ opOf w = some .halt ∨ opOf w = none) : (controlOf w).alu = .zero := by
  obtain h | h | h := h <;> simp [controlOf, h]

theorem committed_latchesAgree (s : State) : (committed s).latchesAgree = true := by
  rw [State.latchesAgree_iff]
  refine ⟨committed_offset_agrees s, ?_⟩
  obtain hnoop | ⟨hword, halu⟩ := committed_exmem_word s
  · simp [hnoop]
  · rw [hword, halu, committed_branchTarget]
    constructor
    · intro hbeq
      rw [controlOf_alu_of_beq hbeq]
      rfl
    · intro hinert
      rw [controlOf_alu_of_inert hinert]
      rfl

/-- Settles O45: a fault leaves the latches, and a commit establishes both whatever they held. -/
theorem stepKeepsTheLatchesInAgreement : Obligations.StepKeepsTheLatchesInAgreement := by
  unfold Obligations.StepKeepsTheLatchesInAgreement
  intro s t hfwd hagree hstep
  obtain ⟨-, -, ⟨r, rfl, -⟩ | ⟨-, -, rfl⟩⟩ := step_cases hstep
  · exact ⟨hfwd, hagree⟩
  · exact ⟨committed_noAddressForwarded s, committed_latchesAgree s⟩

/-! ## The auxiliary fields of a bubble (R35, R167) -/

/-- Two latches hold the same word, and the same fields unless the word is a `noop`: `agreeOrNoop` for a latch
whose word is read by `word`. -/
def SameOrNoop {α : Type} (word : α → Word) (x y : α) : Prop :=
  word x = word y ∧ (opOf (word x) = some .noop ∨ x = y)

theorem agreeOrNoop_iff {α : Type} [DecidableEq α] (word : α → Word) (x y : α) :
    agreeOrNoop (word x) (word y) (decide (x = y)) = true ↔ SameOrNoop word x y := by
  simp [agreeOrNoop, SameOrNoop]

theorem SameOrNoop.of_eq {α : Type} {word : α → Word} {x y : α} (h : x = y) : SameOrNoop word x y :=
  ⟨congrArg word h, .inr h⟩

/-- What reads the same from every latch with one `noop` reads the same from both latches. -/
theorem SameOrNoop.congr {α β : Type} {word : α → Word} {x y : α} (h : SameOrNoop word x y) (f : α → β)
    (hf : opOf (word x) = some .noop → opOf (word y) = some .noop → f x = f y) : f x = f y := by
  obtain ⟨hword, hnoop | rfl⟩ := h
  · exact hf hnoop (hword ▸ hnoop)
  · rfl

/-- Latches that hold another word than a `noop` are equal. -/
theorem SameOrNoop.eq_of_op {α : Type} {word : α → Word} {x y : α} (h : SameOrNoop word x y) {o : Op}
    (hop : opOf (word x) = some o) (ho : o ≠ .noop) : x = y := by
  obtain ⟨-, hnoop | heq⟩ := h
  · exact absurd (Option.some.inj (hop.symm.trans hnoop)) ho
  · exact heq

/-- `State.sameButBubbles` with its parts named. -/
structure SameButBubbles (s t : State) : Prop where
  config : s.config = t.config
  pc : s.pc = t.pc
  imem : s.imem = t.imem
  dmem : s.dmem = t.dmem
  reg : s.reg = t.reg
  cycles : s.cycles = t.cycles
  fault : s.fault = t.fault
  ifid : SameOrNoop IFID.instr s.ifid t.ifid
  idex : SameOrNoop IDEX.instr s.idex t.idex
  exmem : SameOrNoop EXMEM.instr s.exmem t.exmem
  memwb : SameOrNoop MEMWB.instr s.memwb t.memwb
  wbend : SameOrNoop WBEND.instr s.wbend t.wbend

theorem sameButBubbles_iff (s t : State) : s.sameButBubbles t = true ↔ SameButBubbles s t := by
  simp only [State.sameButBubbles, Bool.and_eq_true, decide_eq_true_eq, agreeOrNoop_iff, and_assoc]
  constructor
  · rintro ⟨hc, hp, hi, hd, hr, hn, hf, hifid, hidex, hexmem, hmemwb, hwbend⟩
    exact ⟨hc, hp, hi, hd, hr, hn, hf, hifid, hidex, hexmem, hmemwb, hwbend⟩
  · intro h
    exact ⟨h.config, h.pc, h.imem, h.dmem, h.reg, h.cycles, h.fault, h.ifid, h.idex, h.exmem, h.memwb, h.wbend⟩

theorem destOf_of_noop {w : Word} (h : opOf w = some .noop) : destOf w = none := by
  simp [destOf, h]

/-- A `noop` forwards nothing (R150). -/
theorem forwardFrom_of_noop {w : Word} (h : opOf w = some .noop) (x : Word) (i : RegIdx) (v : Word) :
    forwardFrom w x i v = v := by
  simp [forwardFrom, destOf_of_noop h]

/-- A `noop` that a stall or a squash replaces by the bubble stays a `noop`. -/
theorem opOf_bubble_or_noop (b : Bool) {w : Word} (h : opOf w = some .noop) :
    opOf (if b then noopWord else w) = some .noop := by
  cases b with
  | true => exact opOf_noopWord
  | false => exact h

/-- `IFID` after a commit (R143, R148, R160, R167). -/
theorem committed_ifid (s : State) (hp : s.fetchable = true) : (committed s).ifid =
    { instr := if s.branchTaken then noopWord else if s.loadUse then s.ifid.instr else s.fetchWord
      pcPlus1 := if s.loadUse then s.ifid.pcPlus1 else s.pc + 1#32 } := by
  rw [← committed_ifid_instr s hp, ← committed_ifid_pcPlus1 s hp]

namespace SameButBubbles

section
variable {s t : State} (h : SameButBubbles s t)
include h

theorem inRange_eq (a : Word) : s.inRange a = t.inRange a := by simp [State.inRange, h.config]

theorem fetchable_eq : s.fetchable = t.fetchable := by simp [State.fetchable, h.pc, h.inRange_eq]

theorem fetchWord_eq : s.fetchWord = t.fetchWord := by
  simp [State.fetchWord, State.imemRead, h.pc, h.imem]

theorem haltRetired_eq : s.haltRetired = t.haltRetired := by simp [State.haltRetired, h.wbend.1]

theorem loadUse_eq : s.loadUse = t.loadUse := by simp [State.loadUse, h.ifid.1, h.idex.1]

/-- A `noop` in `EXMEM` is no branch (R159). -/
theorem branchTaken_eq : s.branchTaken = t.branchTaken :=
  h.exmem.congr (fun x => decide (opOf x.instr = some .beq) && x.eq) fun hs ht => by simp [hs, ht]

/-- A `noop` in `EXMEM` raises no fault (R244). -/
theorem oldestFault_eq : s.oldestFault = t.oldestFault := by
  rw [Machine.oldestFault_eq, Machine.oldestFault_eq, h.config]
  obtain ⟨hword, hnoop | heq⟩ := h.exmem
  · simp [← hword, hnoop]
  · simp [heq, h.inRange_eq]

/-- No latch that holds a `noop` takes part in forwarding (R150, R152). -/
theorem forward_eq (i : RegIdx) (v : Word) : s.forward i v = t.forward i v := by
  have hx (v : Word) := h.exmem.congr (fun x => forwardFrom x.instr x.aluResult i v)
    fun hs ht => by simp [forwardFrom_of_noop hs, forwardFrom_of_noop ht]
  have hm (v : Word) := h.memwb.congr (fun x => forwardFrom x.instr x.writeData i v)
    fun hs ht => by simp [forwardFrom_of_noop hs, forwardFrom_of_noop ht]
  have hw (v : Word) := h.wbend.congr (fun x => forwardFrom x.instr x.writeData i v)
    fun hs ht => by simp [forwardFrom_of_noop hs, forwardFrom_of_noop ht]
  simp only [State.forward, hx, hm, hw]

/-- What Execute writes for a word that is no bubble. -/
theorem executeStage_exmem_eq (op : AluOp) (hd : s.idex = t.idex) :
    (executeStage op s s).exmem = (executeStage op t t).exmem := by
  have ha : s.operandA = t.operandA := by simp [State.operandA, hd, h.forward_eq]
  have hb : s.operandB = t.operandB := by simp [State.operandB, hd, h.forward_eq]
  simp [State.targetOf, State.operandsEqual, hd, ha, hb]

theorem raise (r : FaultReason) : SameButBubbles (s.raise r) (t.raise r) :=
  { h with fault := rfl }

/-! The next snapshots agree field by field. -/

theorem committed_pc_eq (hp : s.fetchable = true) : (committed s).pc = (committed t).pc := by
  rw [committed_pc s hp, committed_pc t (h.fetchable_eq ▸ hp), h.branchTaken_eq, h.loadUse_eq, h.pc]
  cases hb : t.branchTaken with
  | false => rfl
  | true =>
    have hbeq : opOf s.exmem.instr = some .beq :=
      (controlOf_branch _).1 ((Machine.branchTaken_eq s).1 (h.branchTaken_eq.trans hb)).1
    rw [h.exmem.eq_of_op hbeq (by decide)]

theorem committed_dmem_eq : (committed s).dmem = (committed t).dmem := by
  rw [committed_dmem, committed_dmem, h.exmem.1]
  split
  · rename_i hsw
    rw [h.exmem.eq_of_op (h.exmem.1 ▸ hsw) (by decide), State.dmemWrite, State.dmemWrite, h.dmem]
  · exact h.dmem

theorem committed_reg_eq : (committed s).reg = (committed t).reg := by
  rw [committed_reg, committed_reg, h.reg]
  exact h.memwb.congr (fun x => t.reg.writeDest (destOf x.instr) x.writeData)
    fun hs ht => by simp [destOf_of_noop hs, destOf_of_noop ht, RegFile.writeDest]

theorem committed_ifid_same (hp : s.fetchable = true) :
    SameOrNoop IFID.instr (committed s).ifid (committed t).ifid := by
  rw [committed_ifid s hp, committed_ifid t (h.fetchable_eq ▸ hp), h.branchTaken_eq, h.loadUse_eq,
    h.fetchWord_eq, h.pc]
  cases t.loadUse with
  | false => exact .of_eq rfl
  | true =>
    obtain ⟨hword, hnoop | heq⟩ := h.ifid
    · exact ⟨by simp [hword], .inl (opOf_bubble_or_noop _ hnoop)⟩
    · exact .of_eq (by rw [heq])

theorem committed_idex_same : SameOrNoop IDEX.instr (committed s).idex (committed t).idex := by
  rw [committed_idex, committed_idex, h.branchTaken_eq, h.loadUse_eq]
  obtain ⟨hword, hnoop | heq⟩ := h.ifid
  · exact ⟨by simp [hword], .inl (opOf_bubble_or_noop _ hnoop)⟩
  · exact .of_eq (by simp [heq, h.reg])

theorem committed_exmem_same : SameOrNoop EXMEM.instr (committed s).exmem (committed t).exmem := by
  rw [committed_exmem, committed_exmem, h.branchTaken_eq]
  obtain ⟨hword, hnoop | heq⟩ := h.idex
  · exact ⟨by simp [hword], .inl (opOf_bubble_or_noop _ hnoop)⟩
  · exact .of_eq (by rw [heq, h.executeStage_exmem_eq _ heq])

theorem committed_memwb_same : SameOrNoop MEMWB.instr (committed s).memwb (committed t).memwb := by
  rw [committed_memwb, committed_memwb]
  obtain ⟨hword, hnoop | heq⟩ := h.exmem
  · exact ⟨hword, .inl hnoop⟩
  · exact .of_eq (by simp [heq, State.dmemRead, h.dmem])

theorem committed_wbend_same : SameOrNoop WBEND.instr (committed s).wbend (committed t).wbend := by
  rw [committed_wbend, committed_wbend]
  obtain ⟨hword, hnoop | heq⟩ := h.memwb
  · exact ⟨hword, .inl hnoop⟩
  · exact .of_eq (by simp [heq])

theorem committed_same (hp : s.fetchable = true) : SameButBubbles (committed s) (committed t) where
  config := by rw [committed_config, committed_config, h.config]
  pc := h.committed_pc_eq hp
  imem := by rw [committed_imem, committed_imem, h.imem]
  dmem := h.committed_dmem_eq
  reg := h.committed_reg_eq
  cycles := by rw [committed_cycles, committed_cycles, h.cycles]
  fault := by rw [committed_fault, committed_fault, h.fault]
  ifid := h.committed_ifid_same hp
  idex := h.committed_idex_same
  exmem := h.committed_exmem_same
  memwb := h.committed_memwb_same
  wbend := h.committed_wbend_same

/-- Two states that differ only in the fields of bubbles step alike. -/
theorem step_same {u : State} (hstep : step s = .next u) : ∃ v, step t = .next v ∧ SameButBubbles u v := by
  obtain ⟨hf, hh, hcase⟩ := step_cases hstep
  rw [h.fault] at hf
  rw [h.haltRetired_eq] at hh
  obtain ⟨r, rfl, ho | ⟨ho, hp, rfl⟩⟩ | ⟨ho, hp, rfl⟩ := hcase
  · rw [h.oldestFault_eq] at ho
    exact ⟨t.raise r, by simp [step_eq, hf, hh, ho], h.raise r⟩
  · rw [h.oldestFault_eq] at ho
    rw [h.fetchable_eq] at hp
    exact ⟨t.raise _, by simp [step_eq, hf, hh, ho, hp, h.pc], h.raise _⟩
  · have hsame := h.committed_same hp
    rw [h.oldestFault_eq] at ho
    rw [h.fetchable_eq] at hp
    exact ⟨committed t, by simp [step_eq, hf, hh, ho, hp], hsame⟩

end

end SameButBubbles

/-- Settles O47: the relation `SameButBubbles` is kept by a step. -/
theorem bubbleFieldsHaveNoEffect : Obligations.BubbleFieldsHaveNoEffect := by
  unfold Obligations.BubbleFieldsHaveNoEffect
  intro s s' t hsame hstep
  obtain ⟨t', hstep', hsame'⟩ := ((sameButBubbles_iff s s').1 hsame).step_same hstep
  exact ⟨t', hstep', (sameButBubbles_iff t t').2 hsame'⟩

/-! ## How `pc`, the registers and `cycles` change (R22, R26, R37) -/

/-- Settles O27, by `committed_pc`. -/
theorem pcChangesInThreeWays : Obligations.PcChangesInThreeWays := by
  unfold Obligations.PcChangesInThreeWays
  intro s t hst
  obtain ⟨-, -, -, hp, rfl⟩ := (commits_iff s t).1 hst
  rw [committed_pc s hp]
  refine ⟨?_, ?_, ?_⟩
  · intro hb
    simp [hb]
  · intro hb hu
    simp [hb, hu]
  · intro hb hu
    simp [hb, hu]

theorem committed_reg_read (s : State) (i : RegIdx) : (committed s).reg.read i =
    if destOf s.memwb.instr = some i then s.memwb.writeData else s.reg.read i := by
  rw [committed_reg, RegFile.read_writeDest]

theorem destOf_of_lw {w : Word} (h : opcode w = 2) : destOf w = some (fieldB w) := by
  have hop : opOf w = some .lw := (opOf_iff w .lw).2 h
  simp [destOf, hop]

/-- Only the opcodes 0, 1 and 2 are writers (R150). -/
theorem destOf_of_outside {w : Word} (h : opcode w < 0 ∨ 2 < opcode w) : destOf w = none := by
  cases hop : opOf w with
  | none => simp [destOf, hop]
  | some o =>
    have hnum : opcode w = o.number := (opOf_iff w o).1 hop
    cases o <;> simp_all [destOf, Op.number]

/-- A register that a commit changes is the destination of the word in `MEMWB`. -/
theorem destOf_of_changed {s : State} {i : RegIdx} (h : (committed s).reg.read i ≠ s.reg.read i) :
    destOf s.memwb.instr = some i := by
  by_contra hne
  exact h (by rw [committed_reg_read, if_neg hne])

/-- Settles O36: the destination of the word in `MEMWB` is the one register written. -/
theorem writebackByOpcode : Obligations.WritebackByOpcode := by
  unfold Obligations.WritebackByOpcode
  intro s t hst
  obtain ⟨-, -, -, -, rfl⟩ := (commits_iff s t).1 hst
  refine ⟨?_, ?_, ?_, committed_wbend s⟩
  · intro hlw i
    simp [committed_reg_read, destOf_of_lw hlw, eq_comm]
  · intro hout i
    simp [committed_reg_read, destOf_of_outside hout]
  · intro i j hi hj
    exact Option.some.inj ((destOf_of_changed hi).symm.trans (destOf_of_changed hj))

theorem cycles_of_commits {s t : State} (h : commits s t) : t.cycles = s.cycles + 1 := by
  obtain ⟨-, -, -, -, rfl⟩ := (commits_iff s t).1 h
  exact committed_cycles s

/-- A run that ends without a fault begins without one: a fault has no step (R141). -/
theorem fault_eq_none_of_runsTo {k : Nat} {s t : State} (h : runsTo k s t) (ht : t.fault = none) :
    s.fault = none := by
  cases k with
  | zero =>
    rw [(runsTo_zero s t).1 h]
    exact ht
  | succ k =>
    obtain ⟨u, hstep, -⟩ := (runsTo_succ k s t).1 h
    exact (step_cases hstep).1

/-- Settles O39, by induction on the number of cycles. -/
theorem runOfUnfaultedCyclesCountsThem : Obligations.RunOfUnfaultedCyclesCountsThem := by
  unfold Obligations.RunOfUnfaultedCyclesCountsThem
  intro k
  induction k with
  | zero =>
    intro s t hrun _
    rw [(runsTo_zero s t).1 hrun, Nat.add_zero]
  | succ k ih =>
    intro s t hrun ht
    obtain ⟨u, hstep, hrest⟩ := (runsTo_succ k s t).1 hrun
    have hfirst : u.cycles = s.cycles + 1 := cycles_of_commits ⟨hstep, fault_eq_none_of_runsTo hrest ht⟩
    rw [ih u t hrest ht, hfirst]
    omega

/-! ## Reset (R42, R270, R271) -/

theorem resetWith_reg_read (c : Config) (imem0 dmem0 : Memory) (r : RegIdx) :
    (State.resetWith c imem0 dmem0).reg.read r = 0#32 := by
  simp [State.resetWith, RegFile.read]

/-- Settles O40, field by field. -/
theorem resetLeavesTheStatedValues : Obligations.ResetLeavesTheStatedValues := by
  unfold Obligations.ResetLeavesTheStatedValues
  intro c imem0 dmem0
  exact ⟨rfl, resetWith_reg_read c imem0 dmem0, rfl, rfl, rfl, rfl, rfl, rfl, rfl, rfl, rfl, rfl⟩

/-- With a `noop` in every latch the two invariants of the latches hold, whatever the reset inputs. -/
theorem resetWith_latches_ok (c : Config) (imem0 dmem0 : Memory) :
    (State.resetWith c imem0 dmem0).noAddressForwarded = true ∧
      (State.resetWith c imem0 dmem0).latchesAgree = true := by
  simp [State.noAddressForwarded_iff, State.latchesAgree_iff, State.resetWith, opOf_noopWord]

/-- Settles O42: the memories are empty and every latch holds the bubble. -/
theorem resetMeetsTheInvariants : Obligations.ResetMeetsTheInvariants :=
  ⟨by decide, resetWith_latches_ok _ _ _⟩

end Sys2Proof.Machine

/-! The statements of spec/20_memory.md: what Memory reads and writes, that a store never reaches Fetch, and where a
meaning faults. -/

namespace Sys2Proof.Machine

/-! ## The Memory stage (R66, R67, R158) -/

/-- A load reads data memory as it stands when the cycle starts (R66). -/
theorem committed_writeData_of_lw {s : State} (h : opcode s.exmem.instr = 2) :
    (committed s).memwb.writeData = s.dmemRead s.exmem.aluResult := by
  have hlw : opOf s.exmem.instr = some .lw := (opOf_iff _ .lw).2 h
  rw [committed_memwb, if_pos hlw]

theorem committed_writeData_of_not_lw {s : State} (h : opcode s.exmem.instr ≠ 2) :
    (committed s).memwb.writeData = s.exmem.aluResult := by
  have hlw : opOf s.exmem.instr ≠ some .lw := mt (opOf_iff _ .lw).1 h
  rw [committed_memwb, if_neg hlw]

/-- A store writes one word of a canonical data memory (R67). -/
theorem committed_dmem_read_of_sw {s : State} (h : opcode s.exmem.instr = 3) (hwf : s.dmem.wf = true) (addr : Nat) :
    (committed s).dmem.read addr =
      if addr = addressOf s.exmem.aluResult then s.exmem.readRegB else s.dmem.read addr := by
  have hsw : opOf s.exmem.instr = some .sw := (opOf_iff _ .sw).2 h
  rw [committed_dmem, if_pos hsw, State.dmemWrite, Memory.read_write _ _ _ hwf]

theorem committed_dmem_of_not_sw {s : State} (h : opcode s.exmem.instr ≠ 3) : (committed s).dmem = s.dmem := by
  have hsw : opOf s.exmem.instr ≠ some .sw := mt (opOf_iff _ .sw).1 h
  rw [committed_dmem, if_neg hsw]

/-- Settles O35: the word in `EXMEM` decides what `MEMWB` and data memory receive. -/
theorem memoryStageByOpcode : Obligations.MemoryStageByOpcode := by
  unfold Obligations.MemoryStageByOpcode
  intro s t hst hwf
  obtain ⟨-, -, -, -, rfl⟩ := (commits_iff s t).1 hst
  refine ⟨by rw [committed_memwb], committed_writeData_of_lw, committed_writeData_of_not_lw, ?_,
    committed_dmem_of_not_sw⟩
  intro hsw
  constructor
  · rw [committed_dmem_read_of_sw hsw hwf]
    exact if_pos rfl
  · intro addr hne
    rw [committed_dmem_read_of_sw hsw hwf]
    exact if_neg hne

/-! ## Fetch and data memory (R77, R280) -/

/-- No condition or value of `pc` and `IFID` after a commit reads data memory (R143, R148, R160). -/
theorem committed_fetch_of_dmem (s : State) (m : Memory) (hp : s.fetchable = true) :
    (committed { s with dmem := m }).ifid = (committed s).ifid ∧
      (committed { s with dmem := m }).pc = (committed s).pc := by
  have hp' : ({ s with dmem := m } : State).fetchable = true := hp
  constructor
  · rw [committed_ifid _ hp', committed_ifid s hp]
    rfl
  · rw [committed_pc _ hp', committed_pc s hp]
    rfl

/-- A step, whether it commits or records a fault, writes neither instruction memory nor a parameter. -/
theorem imem_config_of_step {s t : State} (h : step s = .next t) : t.imem = s.imem ∧ t.config = s.config := by
  obtain ⟨-, -, ⟨r, rfl, -⟩ | ⟨-, -, rfl⟩⟩ := step_cases h
  · exact ⟨State.raise_imem s r, State.raise_config s r⟩
  · exact ⟨committed_imem s, committed_config s⟩

theorem imem_config_of_runsTo {k : Nat} {s t : State} (h : runsTo k s t) :
    t.imem = s.imem ∧ t.config = s.config := by
  induction k generalizing s with
  | zero =>
    rw [(runsTo_zero s t).1 h]
    exact ⟨rfl, rfl⟩
  | succ k ih =>
    obtain ⟨u, hstep, hrest⟩ := (runsTo_succ k s t).1 h
    obtain ⟨himem, hconfig⟩ := imem_config_of_step hstep
    obtain ⟨himem', hconfig'⟩ := ih hrest
    exact ⟨himem'.trans himem, hconfig'.trans hconfig⟩

/-- Settles O38: Fetch does not read data memory, and a run writes no instruction memory. -/
theorem storesAreNeverSeenByFetch : Obligations.StoresAreNeverSeenByFetch := by
  unfold Obligations.StoresAreNeverSeenByFetch
  constructor
  · rintro s _ t t' m rfl hst hst'
    obtain ⟨-, -, -, hp, rfl⟩ := (commits_iff s t).1 hst
    obtain ⟨-, -, -, -, rfl⟩ := (commits_iff _ t').1 hst'
    exact committed_fetch_of_dmem s m hp
  · intro k s t hrun
    exact imem_config_of_runsTo hrun

/-! ## Where a meaning faults (R72, R206, R244, R245) -/

theorem State.memoryFault_load {s : State} (h : s.inRange s.exmem.aluResult = false) :
    s.memoryFault .load = some (.loadOutOfRange s.exmem.aluResult) := by
  simp [State.memoryFault, h]

theorem State.memoryFault_store {s : State} (h : s.inRange s.exmem.aluResult = false) :
    s.memoryFault .store = some (.storeOutOfRange s.exmem.aluResult) := by
  simp [State.memoryFault, h]

theorem State.memoryFault_unimplemented {s : State} (h : s.config.jalrFaults = true) :
    s.memoryFault .unimplemented = some (.jalrUnimplemented s.exmem.instr) := by
  simp [State.memoryFault, h]

/-- The fault of the instruction in `EXMEM` is the whole outcome of its meaning (R245). -/
theorem runStages_of_memoryFault {i : Instr} {c : Control} {s : State} {r : FaultReason}
    (hi : decode s.exmem.instr = .ok i) (hr : s.memoryFault c.mem = some r) :
    runStages i.isWord c s = .next { s with fault := some r } := by
  have hf : faultOf i.isWord c s = some r := by rw [faultOf, if_pos ((isWord_iff i _).2 hi), hr]
  exact runStages_of_fault hf

/-- Settles O16: each of the three is `runStages` with the Memory action that faults. -/
theorem lwSwAndJalrFaultInMemory : Obligations.LwSwAndJalrFaultInMemory := by
  unfold Obligations.LwSwAndJalrFaultInMemory
  intro a b off c s
  refine ⟨?_, ?_, ?_⟩
  · intro hi hout
    exact runStages_of_memoryFault hi (State.memoryFault_load hout)
  · intro hi hout
    exact runStages_of_memoryFault hi (State.memoryFault_store hout)
  · intro hi hfaults
    exact runStages_of_memoryFault hi (State.memoryFault_unimplemented hfaults)

end Sys2Proof.Machine

/-! The statements of spec/30_encoding.md: the fields of a word as digits of its number, the two round trips of the
codec as one equivalence, the words the decoder refuses, and the immediate. -/

namespace Sys2Proof

/-! ## The fields of a word as digits of its number (R91, R93 to R95) -/

theorem toNat_opcodeBits (w : Word) : (w.extractLsb' 22 10).toNat = w.toNat / 2 ^ 22 := by
  rw [BitVec.extractLsb'_toNat, Nat.shiftRight_eq_div_pow]
  omega

theorem toNat_highBits (w : Word) : (w.extractLsb' 25 7).toNat = w.toNat / 2 ^ 25 := by
  rw [BitVec.extractLsb'_toNat, Nat.shiftRight_eq_div_pow]
  omega

theorem toNat_fieldA (w : Word) : (fieldA w).toNat = w.toNat / 2 ^ 19 % 2 ^ 3 := by
  rw [fieldA, BitVec.extractLsb'_toNat, Nat.shiftRight_eq_div_pow]

theorem toNat_fieldB (w : Word) : (fieldB w).toNat = w.toNat / 2 ^ 16 % 2 ^ 3 := by
  rw [fieldB, BitVec.extractLsb'_toNat, Nat.shiftRight_eq_div_pow]

theorem toNat_fieldC (w : Word) : (fieldC w).toNat = w.toNat % 2 ^ 16 := by
  rw [fieldC, BitVec.extractLsb'_toNat, Nat.shiftRight_zero]

/-- The 10-bit field read as signed (R93). -/
theorem opcode_eq_ite (w : Word) : opcode w =
    if (w.extractLsb' 22 10).toNat < 512 then ((w.extractLsb' 22 10).toNat : Int)
    else ((w.extractLsb' 22 10).toNat : Int) - 1024 := by
  rw [opcode, BitVec.toInt_eq_toNat_cond]
  split <;> split <;> omega

theorem opcode_eq_natCast_iff (w : Word) {op : Nat} (hop : op < 8) : opcode w = op ↔ w.toNat / 2 ^ 22 = op := by
  rw [opcode_eq_ite, toNat_opcodeBits]
  split <;> omega

/-- No bit of `[31:25]` is set exactly when the opcode is in `0..7` (R101). -/
theorem highBits_eq_zero_iff (w : Word) : w.extractLsb' 25 7 = 0#7 ↔ 0 ≤ opcode w ∧ opcode w ≤ 7 := by
  rw [← BitVec.toNat_inj, BitVec.toNat_ofNat, Nat.zero_mod, toNat_highBits, opcode_eq_ite, toNat_opcodeBits]
  split <;> omega

/-! ## The fields of an encoded word (R100) -/

/-- A field that fits where it is put is multiplied. -/
theorem toNat_setWidth_shiftLeft {n : Nat} (x : BitVec n) (k : Nat) (hx : 2 ^ k * x.toNat < 2 ^ 32) :
    (x.setWidth 32 <<< k).toNat = 2 ^ k * x.toNat := by
  rw [BitVec.toNat_shiftLeft, BitVec.toNat_setWidth, Nat.shiftLeft_eq, Nat.mod_mul_mod, mul_comm, Nat.mod_eq_of_lt hx]

/-- R100 as a sum: the four fields, each put in its place, share no bit. -/
theorem toNat_encodeFields {op : Nat} (hop : op < 8) (a b : RegIdx) (c : Half) : (encodeFields op a b c).toNat =
    2 ^ 22 * op + (2 ^ 19 * a.toNat + (2 ^ 16 * b.toNat + c.toNat)) := by
  have hopcode : (BitVec.ofNat 32 op <<< 22).toNat = 2 ^ 22 * op := by
    rw [BitVec.toNat_shiftLeft, BitVec.toNat_ofNat, Nat.shiftLeft_eq]
    omega
  have hc : (c.setWidth 32).toNat = c.toNat := BitVec.toNat_setWidth_of_le (by decide)
  rw [encodeFields, BitVec.toNat_or, BitVec.toNat_or, BitVec.toNat_or, hopcode, hc,
    toNat_setWidth_shiftLeft a 19 (by omega), toNat_setWidth_shiftLeft b 16 (by omega), Nat.or_assoc, Nat.or_assoc,
    ← Nat.two_pow_add_eq_or_of_lt c.isLt, ← Nat.two_pow_add_eq_or_of_lt (i := 19) (by omega),
    ← Nat.two_pow_add_eq_or_of_lt (by omega)]

section

variable {op : Nat} (hop : op < 8) (a b : RegIdx) (c : Half)
include hop

theorem opcode_encodeFields : opcode (encodeFields op a b c) = op := by
  rw [opcode_eq_natCast_iff _ hop, toNat_encodeFields hop]
  omega

theorem fieldA_encodeFields : fieldA (encodeFields op a b c) = a := by
  apply BitVec.eq_of_toNat_eq
  rw [toNat_fieldA, toNat_encodeFields hop]
  omega

theorem fieldB_encodeFields : fieldB (encodeFields op a b c) = b := by
  apply BitVec.eq_of_toNat_eq
  rw [toNat_fieldB, toNat_encodeFields hop]
  omega

theorem fieldC_encodeFields : fieldC (encodeFields op a b c) = c := by
  apply BitVec.eq_of_toNat_eq
  rw [toNat_fieldC, toNat_encodeFields hop]
  omega

end

/-- The fields of a word with an opcode in `0..7` are all of it. -/
theorem encodeFields_of_opcode {w : Word} {op : Nat} (hop : op < 8) (h : opcode w = op) :
    encodeFields op (fieldA w) (fieldB w) (fieldC w) = w := by
  apply BitVec.eq_of_toNat_eq
  rw [opcode_eq_natCast_iff w hop] at h
  rw [toNat_encodeFields hop, toNat_fieldA, toNat_fieldB, toNat_fieldC]
  omega

/-! ## Signed offsets (R96, R105) -/

theorem offsetInRange_iff (off : Int) : offsetInRange off = true ↔ -32768 ≤ off ∧ off ≤ 32767 := by
  simp [offsetInRange]

/-- The low 16 bits of an offset in range, read as signed, are the offset; every half-word is such an offset. -/
theorem toInt_eq_iff (c : Half) (off : Int) : c.toInt = off ↔ c = offsetBits off ∧ offsetInRange off = true := by
  rw [offsetInRange_iff]
  constructor
  · rintro rfl
    have hlow : -2 ^ 15 ≤ c.toInt := c.le_toInt
    have hhigh : c.toInt < 2 ^ 15 := c.toInt_lt
    exact ⟨BitVec.ofInt_toInt.symm, by omega, by omega⟩
  · rintro ⟨rfl, hlow, hhigh⟩
    exact BitVec.toInt_ofInt_eq_self (by decide) (by omega) (by omega)

/-- The immediate is the signed number of `fieldC` (R96). -/
theorem toInt_imm (w : Word) : (imm w).toInt = (fieldC w).toInt := BitVec.toInt_signExtend_of_le (by decide)

/-! ## Decoding and encoding (R97, R100, R107) -/

theorem Op.number_lt (o : Op) : o.number < 8 := by
  cases o <;> decide

/-- A word is what R100 makes of four fields exactly when they are its fields. -/
theorem eq_encodeFields_iff (w : Word) (o : Op) (a b : RegIdx) (c : Half) : w = encodeFields o.number a b c ↔
    opOf w = some o ∧ fieldA w = a ∧ fieldB w = b ∧ fieldC w = c := by
  rw [opOf_iff]
  constructor
  · rintro rfl
    exact ⟨opcode_encodeFields o.number_lt a b c, fieldA_encodeFields o.number_lt a b c,
      fieldB_encodeFields o.number_lt a b c, fieldC_encodeFields o.number_lt a b c⟩
  · rintro ⟨hop, rfl, rfl, rfl⟩
    exact (encodeFields_of_opcode o.number_lt hop).symm

/-- The same with a signed offset in the place of `fieldC`. -/
theorem eq_encodeFields_offset_iff (w : Word) (o : Op) (a b : RegIdx) (off : Int) :
    w = encodeFields o.number a b (offsetBits off) ∧ offsetInRange off = true ↔
      opOf w = some o ∧ fieldA w = a ∧ fieldB w = b ∧ (fieldC w).toInt = off := by
  rw [eq_encodeFields_iff, toInt_eq_iff]
  tauto

/-- The decoder gives an instruction exactly to the word that encodes it, and only well-formed ones. -/
theorem decode_eq_ok_iff (w : Word) (i : Instr) : decode w = .ok i ↔ w = encode i ∧ i.wellFormed = true := by
  have hfields (o : Op) (a b : RegIdx) (c : Half) :
      opOf w = some o ∧ fieldA w = a ∧ fieldB w = b ∧ fieldC w = c ↔
        w = encodeFields o.number a b c ∧ true = true := by
    rw [eq_encodeFields_iff, and_iff_left rfl]
  cases i with
  | add a b c => exact (decode_add_iff w a b c).trans (hfields .add a b c)
  | nor a b c => exact (decode_nor_iff w a b c).trans (hfields .nor a b c)
  | lw a b off => exact (decode_lw_iff w a b off).trans (eq_encodeFields_offset_iff w .lw a b off).symm
  | sw a b off => exact (decode_sw_iff w a b off).trans (eq_encodeFields_offset_iff w .sw a b off).symm
  | beq a b off => exact (decode_beq_iff w a b off).trans (eq_encodeFields_offset_iff w .beq a b off).symm
  | jalr a b c => exact (decode_jalr_iff w a b c).trans (hfields .jalr a b c)
  | halt a b c => exact (decode_halt_iff w a b c).trans (hfields .halt a b c)
  | noop a b c => exact (decode_noop_iff w a b c).trans (hfields .noop a b c)

/-- Settles O2: the encoded word meets `decode_eq_ok_iff`. -/
theorem decodeOfEncodeIsTheInstruction : Obligations.DecodeOfEncodeIsTheInstruction := by
  unfold Obligations.DecodeOfEncodeIsTheInstruction
  intro i hwf
  exact (decode_eq_ok_iff (encode i) i).2 ⟨rfl, hwf⟩

/-- Settles O3, by `decode_eq_ok_iff` in the other direction. -/
theorem encodeOfDecodeIsTheWord : Obligations.EncodeOfDecodeIsTheWord := by
  unfold Obligations.EncodeOfDecodeIsTheWord
  intro w i hdecode
  obtain ⟨hword, hwf⟩ := (decode_eq_ok_iff w i).1 hdecode
  exact ⟨hword.symm, hwf⟩

/-- Settles O1, one field at a time. -/
theorem encodedFieldsAreReadBack : Obligations.EncodedFieldsAreReadBack := by
  unfold Obligations.EncodedFieldsAreReadBack
  intro op a b c hop
  have hopcode : opcode (encodeFields op a b c) = op := opcode_encodeFields hop a b c
  refine ⟨hopcode, fieldA_encodeFields hop a b c, fieldB_encodeFields hop a b c, fieldC_encodeFields hop a b c,
    ?_, ?_⟩
  · rw [highBits_eq_zero_iff, hopcode]
    omega
  · intro off hlow hhigh
    have hoff : (fieldC (encodeFields op a b (offsetBits off))).toInt = off :=
      (toInt_eq_iff _ off).2 ⟨fieldC_encodeFields hop a b _, (offsetInRange_iff off).2 ⟨hlow, hhigh⟩⟩
    exact ⟨hoff, (toInt_imm _).trans hoff⟩

/-! ## The words the decoder refuses (R93, R101) -/

theorem decode_eq_error_iff (w : Word) : decode w = .error (.unrecognizedOpcode w) ↔ opOf w = none := by
  constructor
  · exact opOf_of_decode_error
  · intro hop
    rw [decode, hop]

theorem exists_decode_iff (w : Word) : (∃ i, decode w = .ok i) ↔ opOf w ≠ none := by
  constructor
  · rintro ⟨i, hi⟩
    rw [opOf_of_decode hi]
    exact Option.some_ne_none _
  · intro hop
    cases hd : decode w with
    | ok i => exact ⟨i, rfl⟩
    | error e => exact absurd (opOf_of_decode_error hd) hop

theorem opOf_ne_none_iff (w : Word) : opOf w ≠ none ↔ 0 ≤ opcode w ∧ opcode w ≤ 7 := by
  rw [Ne, opOf_none]
  omega

/-- Bit 31 is the sign of the opcode (R93). -/
theorem getLsbD_31_iff_opcode_neg (w : Word) : w.getLsbD 31 = true ↔ opcode w < 0 := by
  have hmsb : (w.extractLsb' 22 10).msb = w.getLsbD 31 := by
    simp [BitVec.msb_eq_getLsbD_last]
  rw [← hmsb, BitVec.msb_eq_toInt, decide_eq_true_iff, opcode]

/-- Settles O4: the decoder's answer through `opOf`, and `[31:25]` through the opcode. -/
theorem decoderRefusesExactlyUnrecognizedWords : Obligations.DecoderRefusesExactlyUnrecognizedWords := by
  unfold Obligations.DecoderRefusesExactlyUnrecognizedWords
  intro w
  have hlow : -2 ^ 9 ≤ opcode w := BitVec.le_toInt _
  have hhigh : opcode w < 2 ^ 9 := BitVec.toInt_lt
  refine ⟨opcode_eq_ite w, by omega, by omega, getLsbD_31_iff_opcode_neg w, ?_, ?_⟩
  · rw [exists_decode_iff, opOf_ne_none_iff]
  · rw [decode_eq_error_iff, Ne, highBits_eq_zero_iff, ← opOf_ne_none_iff, not_not]

/-- Settles O5, by running the decoder. -/
theorem writtenOutWordsDecode : Obligations.WrittenOutWordsDecode := by
  unfold Obligations.WrittenOutWordsDecode
  exact ⟨rfl, rfl, rfl, rfl, rfl, rfl, rfl, rfl, rfl⟩

/-! ## The immediate (R96) -/

theorem toInt_imm_eq_ite (w : Word) : (imm w).toInt =
    if (fieldC w).toNat < 32768 then ((fieldC w).toNat : Int) else ((fieldC w).toNat : Int) - 65536 := by
  rw [toInt_imm, BitVec.toInt_eq_toNat_cond]
  split <;> split <;> omega

namespace Machine

/-- Settles O6: `imm` by its sign, and Decode's write by `committed_idex`. -/
theorem immediateIsSignExtendedAndLatched : Obligations.ImmediateIsSignExtendedAndLatched := by
  unfold Obligations.ImmediateIsSignExtendedAndLatched
  constructor
  · intro w
    refine ⟨toInt_imm_eq_ite w, ?_⟩
    rw [← offsetInRange_iff, toInt_imm]
    exact ((toInt_eq_iff (fieldC w) _).1 rfl).2
  · intro s t hst
    obtain ⟨-, -, -, -, rfl⟩ := (commits_iff s t).1 hst
    rw [committed_idex]
    rfl

end Machine

end Sys2Proof

/-! The statements of spec/40_alu.md: what Execute writes to `EXMEM`, by the opcode in `IDEX`, and who reads the flag
and the target it writes. -/

namespace Sys2Proof.Machine

/-! ## The ALU result (R121 to R124) -/

theorem controlOf_alu_of_add {w : Word} (h : opOf w = some .add) : (controlOf w).alu = .add := by
  simp [controlOf, h]

theorem controlOf_alu_of_nor {w : Word} (h : opOf w = some .nor) : (controlOf w).alu = .nor := by
  simp [controlOf, h]

theorem controlOf_alu_of_lw_or_sw {w : Word} (h : opOf w = some .lw ∨ opOf w = some .sw) :
    (controlOf w).alu = .address := by
  obtain h | h := h <;> simp [controlOf, h]

/-- Execute writes the ALU result of the word in `IDEX`, squashed or not (R149, R167). -/
theorem committed_aluResult (s : State) : (committed s).exmem.aluResult =
    alu (controlOf s.idex.instr).alu s.operandA s.operandB s.idex.offset s.idex.pcPlus1 := by
  rw [committed_exmem]
  rfl

/-- Settles O33: the opcode in `IDEX` selects the ALU operation. -/
theorem aluResultByOpcode : Obligations.AluResultByOpcode := by
  unfold Obligations.AluResultByOpcode
  intro s t hst
  obtain ⟨-, -, -, -, rfl⟩ := (commits_iff s t).1 hst
  rw [committed_aluResult]
  refine ⟨?_, ?_, ?_, ?_⟩
  · intro hop
    rw [controlOf_alu_of_add ((opOf_iff _ .add).2 hop)]
    rfl
  · intro hop
    rw [controlOf_alu_of_nor ((opOf_iff _ .nor).2 hop)]
    rfl
  · intro hop
    rw [controlOf_alu_of_lw_or_sw (hop.imp (opOf_iff _ .lw).2 (opOf_iff _ .sw).2)]
    rfl
  · intro hop
    rw [controlOf_alu_of_beq ((opOf_iff _ .beq).2 hop)]
    rfl

/-! ## The flag and the target in `EXMEM` (R126, R127, R149) -/

theorem committed_exmem_eq_iff (s : State) : (committed s).exmem.eq = true ↔ s.operandA = s.operandB := by
  rw [committed_exmem]
  exact decide_eq_true_iff

theorem committed_exmem_readRegB (s : State) : (committed s).exmem.readRegB = s.operandB := by
  rw [committed_exmem]
  rfl

theorem committed_exmem_instr_of_not_taken {s : State} (h : s.branchTaken = false) :
    (committed s).exmem.instr = s.idex.instr := by
  simp [committed_exmem, h]

/-- For a `beq` the target adder and the ALU compute the same sum (R124, R127). -/
theorem committed_aluResult_of_beq {s : State} (h : opcode s.idex.instr = 4) :
    (committed s).exmem.aluResult = (committed s).exmem.branchTarget := by
  rw [committed_aluResult, committed_branchTarget, controlOf_alu_of_beq ((opOf_iff _ .beq).2 h)]
  rfl

theorem branchTaken_of_not_beq {s : State} (h : opcode s.exmem.instr ≠ 4) : s.branchTaken = false := by
  have hbeq : opOf s.exmem.instr ≠ some .beq := mt (opOf_iff _ .beq).1 h
  simp [State.branchTaken, hbeq]

theorem State.eq_of_fields {s t : State} (config : s.config = t.config) (pc : s.pc = t.pc) (imem : s.imem = t.imem)
    (dmem : s.dmem = t.dmem) (reg : s.reg = t.reg) (ifid : s.ifid = t.ifid) (idex : s.idex = t.idex)
    (exmem : s.exmem = t.exmem) (memwb : s.memwb = t.memwb) (wbend : s.wbend = t.wbend)
    (cycles : s.cycles = t.cycles) (fault : s.fault = t.fault) : s = t := by
  cases s
  cases t
  simp_all

/-- The state with another flag and another target in `EXMEM`. -/
def State.withFlagAndTarget (s : State) (b : Bool) (v : Word) : State :=
  { s with exmem := { s.exmem with eq := b, branchTarget := v } }

section
variable {s : State} {b : Bool} {v : Word}

/-- Only `pc` takes the target, and only when the branch is taken (R159, R160). -/
theorem committed_pc_withFlagAndTarget (hp : s.fetchable = true)
    (hb : (s.withFlagAndTarget b v).branchTaken = s.branchTaken)
    (hv : s.branchTaken = true → v = s.exmem.branchTarget) :
    (committed (s.withFlagAndTarget b v)).pc = (committed s).pc := by
  rw [committed_pc s hp, committed_pc (s.withFlagAndTarget b v) hp, hb]
  cases ht : s.branchTaken with
  | true => exact hv ht
  | false => rfl

/-- The next snapshot depends on the flag through `branchTaken` alone, and on the target only when the branch is
taken (R126, R127, R159). -/
theorem committed_withFlagAndTarget (hp : s.fetchable = true)
    (hb : (s.withFlagAndTarget b v).branchTaken = s.branchTaken)
    (hv : s.branchTaken = true → v = s.exmem.branchTarget) :
    committed (s.withFlagAndTarget b v) = committed s := by
  have hpc := committed_pc_withFlagAndTarget hp hb hv
  have hifid : (committed (s.withFlagAndTarget b v)).ifid = (committed s).ifid := by
    rw [committed_ifid s hp, committed_ifid (s.withFlagAndTarget b v) hp, hb]
    rfl
  have hidex : (committed (s.withFlagAndTarget b v)).idex = (committed s).idex := by
    rw [committed_idex, committed_idex, hb]
    rfl
  have hexmem : (committed (s.withFlagAndTarget b v)).exmem = (committed s).exmem := by
    rw [committed_exmem, committed_exmem, hb]
    rfl
  exact State.eq_of_fields
    (config := (committed_config _).trans (committed_config s).symm)
    (pc := hpc)
    (imem := (committed_imem _).trans (committed_imem s).symm)
    (dmem := (committed_dmem _).trans (committed_dmem s).symm)
    (reg := (committed_reg _).trans (committed_reg s).symm)
    (ifid := hifid)
    (idex := hidex)
    (exmem := hexmem)
    (memwb := (committed_memwb _).trans (committed_memwb s).symm)
    (wbend := (committed_wbend _).trans (committed_wbend s).symm)
    (cycles := (committed_cycles _).trans (committed_cycles s).symm)
    (fault := (committed_fault _).trans (committed_fault s).symm)

/-- No condition of a commit reads the flag or the target (R141, R142, R244). -/
theorem commits_withFlagAndTarget {t : State} (hst : commits s t)
    (hb : (s.withFlagAndTarget b v).branchTaken = s.branchTaken)
    (hv : s.branchTaken = true → v = s.exmem.branchTarget) : commits (s.withFlagAndTarget b v) t := by
  obtain ⟨hf, hh, ho, hp, rfl⟩ := (commits_iff s t).1 hst
  exact (commits_iff _ _).2 ⟨hf, hh, ho, hp, (committed_withFlagAndTarget hp hb hv).symm⟩

end

/-- Settles O32: Execute's write field by field, and the reader of flag and target is `branchTaken`. -/
theorem executeWritesFlagTargetAndStoreData : Obligations.ExecuteWritesFlagTargetAndStoreData := by
  unfold Obligations.ExecuteWritesFlagTargetAndStoreData
  intro s t hst
  have hflag (hop : opcode s.exmem.instr ≠ 4) (b : Bool) :
      commits (s.withFlagAndTarget b s.exmem.branchTarget) t :=
    have hn : (s.withFlagAndTarget b s.exmem.branchTarget).branchTaken = false := branchTaken_of_not_beq hop
    commits_withFlagAndTarget hst (hn.trans (branchTaken_of_not_beq hop).symm) fun _ => rfl
  have htarget (hn : s.branchTaken = false) (v : Word) : commits (s.withFlagAndTarget s.exmem.eq v) t :=
    commits_withFlagAndTarget hst rfl fun ht => absurd (hn.symm.trans ht) Bool.false_ne_true
  obtain ⟨-, -, -, -, rfl⟩ := (commits_iff s t).1 hst
  exact ⟨committed_aluResult_of_beq, hflag, htarget, committed_exmem_eq_iff s, committed_branchTarget s,
    committed_exmem_readRegB s, committed_exmem_instr_of_not_taken⟩

end Sys2Proof.Machine

/-! The statements of spec/41_pipeline.md: a cycle as the pseudocode of R142, when a step exists, what Fetch, Decode,
the stall, the squash and Writeback leave in the next snapshot, and what forwarding gives Execute. -/

namespace Sys2Proof.Machine

/-! ## Opcode numbers (R93, R147, R150, R151, R159) -/

theorem loadUse_iff_opcode (s : State) : s.loadUse = true ↔ opcode s.idex.instr = 2 ∧
    (fieldA s.ifid.instr = fieldB s.idex.instr ∨ fieldB s.ifid.instr = fieldB s.idex.instr) := by
  simp [State.loadUse, namesLoadDest, opOf_iff, Op.number]

theorem branchTaken_iff_opcode (s : State) :
    s.branchTaken = true ↔ opcode s.exmem.instr = 4 ∧ s.exmem.eq = true := by
  simp [State.branchTaken, opOf_iff, Op.number]

theorem opcodeRecognized_eq_false_iff (w : Word) : opcodeRecognized (opcode w) = false ↔ opOf w = none := by
  rw [opOf_none]
  simp [opcodeRecognized]
  omega

/-- The writers and their destinations, by number and by name (R150, R151). -/
theorem destOf_eq_some_iff (w : Word) (i : RegIdx) :
    destOf w = some i ↔ writerByNumber (opcode w) = true ∧ destByNumber w = i := by
  cases hop : opOf w with
  | none =>
    have hnum := (opOf_none w).1 hop
    have hw : writerByNumber (opcode w) = false := by
      simp [writerByNumber]
      omega
    simp [destOf, hop, hw]
  | some o =>
    have hnum : opcode w = o.number := (opOf_iff w o).1 hop
    cases o <;> simp [destOf, hop, hnum, Op.number, writerByNumber, destByNumber, destIndex, fieldC]

/-- The ALU operation, by number and by name (R120 to R125). -/
theorem aluByNumber_eq (w a b offset pcPlus1 : Word) :
    aluByNumber (opcode w) a b offset pcPlus1 = alu (controlOf w).alu a b offset pcPlus1 := by
  cases hop : opOf w with
  | none =>
    have hnum := (opOf_none w).1 hop
    have hlow : opcode w ≠ 0 ∧ opcode w ≠ 1 ∧ opcode w ≠ 2 ∧ opcode w ≠ 3 ∧ opcode w ≠ 4 := by omega
    simp [aluByNumber, controlOf, hop, hlow, alu]
  | some o =>
    have hnum : opcode w = o.number := (opOf_iff w o).1 hop
    cases o <;> simp [aluByNumber, controlOf, hop, hnum, Op.number, alu]

/-! ## Forwarding (R150 to R155) -/

theorem forwardFrom_eq_ite (w x : Word) (i : RegIdx) (v : Word) : forwardFrom w x i v =
    if writerByNumber (opcode w) = true ∧ destByNumber w = i then x else v := by
  simp only [forwardFrom, destOf_eq_some_iff]

/-- The resolver is the loop of R152. -/
theorem forward_eq_forwardLoop (s : State) (i : RegIdx) (v : Word) :
    s.forward i v = forwardLoop (latchesOf s) i v := by
  simp [State.forward, forwardLoop, latchesOf, forwardFrom_eq_ite]

/-- Settles O34: each clause takes or passes one more latch, nearest first. -/
theorem nearestWriterIsForwarded : Obligations.NearestWriterIsForwarded := by
  unfold Obligations.NearestWriterIsForwarded
  intro s i v
  refine ⟨forward_eq_forwardLoop s i v, ?_⟩
  simp only [State.forward, forwardFrom_eq_ite]
  refine ⟨?_, ?_, ?_, ?_⟩
  · intro hwriter hdest
    rw [if_pos ⟨hwriter, hdest⟩]
  · intro hx hwriter hdest
    rw [if_neg hx, if_pos ⟨hwriter, hdest⟩]
  · intro hx hm hwriter hdest
    rw [if_neg hx, if_neg hm, if_pos ⟨hwriter, hdest⟩]
  · intro hx hm hw
    rw [if_neg hx, if_neg hm, if_neg hw]

/-- A load in `EXMEM` whose destination the index is not forwards nothing (R152). -/
theorem forward_of_other_load {s : State} {i : RegIdx} (hlw : opcode s.exmem.instr = 2)
    (hi : i ≠ fieldB s.exmem.instr) (v : Word) : s.forward i v =
      forwardFrom s.memwb.instr s.memwb.writeData i (forwardFrom s.wbend.instr s.wbend.writeData i v) := by
  have hdest : destOf s.exmem.instr ≠ some i := by
    rw [destOf_of_lw hlw, Ne, Option.some.injEq]
    exact hi.symm
  rw [State.forward, forwardFrom, if_neg hdest]

/-- Settles O46: the word in `IDEX` does not name the load's destination. -/
theorem loadAddressReachesNoOperand : Obligations.LoadAddressReachesNoOperand := by
  unfold Obligations.LoadAddressReachesNoOperand
  intro s hinv hlw hword
  have hnames : namesLoadDest s.idex.instr s.exmem.instr = false :=
    ((State.noAddressForwarded_iff s).1 hinv ((opOf_iff _ .lw).2 hlw)).resolve_left hword
  obtain ⟨ha, hb⟩ : fieldA s.idex.instr ≠ fieldB s.exmem.instr ∧ fieldB s.idex.instr ≠ fieldB s.exmem.instr := by
    simpa [namesLoadDest] using hnames
  exact ⟨forward_of_other_load hlw ha _, forward_of_other_load hlw hb _⟩

/-! ## The pseudocode of R142 in the model's stage operations -/

/-- The faults of R142 in their order: the oldest word's, then the fetch fault (R246). -/
theorem faultByNumber_eq (s : State) : faultByNumber s =
    s.oldestFault.or (if s.fetchable then none else some (.fetchOutOfRange s.pc)) := by
  have hjalr : opOf s.exmem.instr = some .jalr ↔ opcode s.exmem.instr = 5 := opOf_iff _ .jalr
  have hlw : opOf s.exmem.instr = some .lw ↔ opcode s.exmem.instr = 2 := opOf_iff _ .lw
  have hsw : opOf s.exmem.instr = some .sw ↔ opcode s.exmem.instr = 3 := opOf_iff _ .sw
  have hfetch : (if s.inRange s.pc = false then some (FaultReason.fetchOutOfRange s.pc) else none) =
      if s.fetchable then none else some (.fetchOutOfRange s.pc) := by
    rw [State.fetchable]
    cases s.inRange s.pc <;> rfl
  simp only [faultByNumber, oldestFault_eq, opcodeRecognized_eq_false_iff, hjalr, hlw, hsw, hfetch]
  generalize (if s.fetchable then none else some (FaultReason.fetchOutOfRange s.pc)) = fetchFault
  split_ifs <;> rfl

/-- What `faultByNumber` names is the whole outcome of a running state's step (R245). -/
theorem step_of_faultByNumber {s : State} {r : FaultReason} (hf : s.fault = none) (hh : s.haltRetired = false)
    (hr : faultByNumber s = some r) : step s = .next (s.raise r) := by
  rw [faultByNumber_eq] at hr
  cases ho : s.oldestFault with
  | some r' =>
    obtain rfl : r' = r := by simpa [ho] using hr
    simp [step_eq, hf, hh, ho]
  | none =>
    obtain ⟨hp, rfl⟩ : s.fetchable = false ∧ FaultReason.fetchOutOfRange s.pc = r := by simpa [ho] using hr
    simp [step_eq, hf, hh, ho, hp]

/-- A running state for which `faultByNumber` names nothing commits (R141). -/
theorem commits_of_faultByNumber {s : State} (hf : s.fault = none) (hh : s.haltRetired = false)
    (hr : faultByNumber s = none) : s.fetchable = true ∧ commits s (committed s) := by
  obtain ⟨ho, hp⟩ : s.oldestFault = none ∧ s.fetchable = true := by simpa [faultByNumber_eq] using hr
  exact ⟨hp, (commits_iff s _).2 ⟨hf, hh, ho, hp, rfl⟩⟩

theorem referenceStep_of_some {s : State} {r : FaultReason} (hr : faultByNumber s = some r) :
    referenceStep s = s.raise r := by
  simp [referenceStep, hr, State.raise]

theorem referenceStep_of_none {s : State} (hr : faultByNumber s = none) : referenceStep s = snapshotByNumber s := by
  simp [referenceStep, hr]

theorem refStall_eq (s s' : State) : refStall s s' = if s.loadUse then stallStage s s' else s' := by
  simp only [refStall, loadUse_iff_opcode]
  rfl

theorem refExecute_eq (s s' : State) : refExecute s s' = executeStage (controlOf s.idex.instr).alu s s' := by
  have ha : forwardedA s = s.operandA := (forward_eq_forwardLoop s _ _).symm
  have hb : forwardedB s = s.operandB := (forward_eq_forwardLoop s _ _).symm
  rw [refExecute, ha, hb, aluByNumber_eq]
  rfl

theorem refMemory_eq (s s' : State) : refMemory s s' =
    { s' with
      memwb :=
        { instr := s.exmem.instr
          writeData :=
            if opOf s.exmem.instr = some .lw then s.dmemRead s.exmem.aluResult else s.exmem.aluResult } } := by
  simp only [refMemory, opOf_iff]
  rfl

theorem refStore_eq (s s' : State) : refStore s s' =
    { s' with
      dmem :=
        if opOf s.exmem.instr = some .sw then s.dmemWrite s.exmem.aluResult s.exmem.readRegB else s'.dmem } := by
  have hsw : opOf s.exmem.instr = some .sw ↔ opcode s.exmem.instr = 3 := opOf_iff _ .sw
  simp only [refStore, hsw]
  split
  · rfl
  · rfl

theorem refSquash_eq (s s' : State) : refSquash s s' = if s.branchTaken then squashStage s s' else s' := by
  simp only [refSquash, branchTaken_iff_opcode]
  rfl

/-- Writeback of R142, where no line before it has written a register (R162 to R164). -/
theorem refWriteback_eq {s s' : State} (hreg : s'.reg = s.reg) : refWriteback s s' =
    { s' with reg := s.reg.writeDest (destOf s.memwb.instr) s.memwb.writeData } := by
  cases hop : opOf s.memwb.instr with
  | none =>
    have hnum := (opOf_none _).1 hop
    have hlow : opcode s.memwb.instr ≠ 0 ∧ opcode s.memwb.instr ≠ 1 ∧ opcode s.memwb.instr ≠ 2 := by omega
    simp [refWriteback, destOf, hop, hlow, RegFile.writeDest, ← hreg]
  | some o =>
    have hnum : opcode s.memwb.instr = o.number := (opOf_iff _ o).1 hop
    cases o <;>
      simp [refWriteback, destOf, hop, hnum, Op.number, RegFile.writeDest, ← hreg, destIndex, fieldC]

/-- The next snapshot of R142 before its lines for Writeback. -/
def snapshotBeforeWriteback (s : State) : State :=
  refSquash s (refStore s (refMemory s (refExecute s (refStall s (refDecode s (refFetch s s))))))

theorem snapshotBeforeWriteback_eq (s : State) : snapshotBeforeWriteback s =
    refSquash s (refStore s (refMemory s (executeStage (controlOf s.idex.instr).alu s
      (if s.loadUse then stallStage s (decodeStage s (fetchStage s s)) else decodeStage s (fetchStage s s))))) := by
  rw [snapshotBeforeWriteback, refExecute_eq, refStall_eq]
  rfl

theorem snapshotBeforeWriteback_reg (s : State) : (snapshotBeforeWriteback s).reg = s.reg := by
  rw [snapshotBeforeWriteback_eq, refSquash_eq, refStore_eq, refMemory_eq]
  cases s.branchTaken <;> cases s.loadUse <;> rfl

/-- The committed next snapshot, every field at once (R142). -/
theorem committed_eq_of_fetchable {s : State} (hp : s.fetchable = true) : committed s =
    { config := s.config
      pc := if s.branchTaken then s.exmem.branchTarget else if s.loadUse then s.pc else s.pc + 1#32
      imem := s.imem
      dmem := if opOf s.exmem.instr = some .sw then s.dmemWrite s.exmem.aluResult s.exmem.readRegB else s.dmem
      reg := s.reg.writeDest (destOf s.memwb.instr) s.memwb.writeData
      ifid :=
        { instr := if s.branchTaken then noopWord else if s.loadUse then s.ifid.instr else s.fetchWord
          pcPlus1 := if s.loadUse then s.ifid.pcPlus1 else s.pc + 1#32 }
      idex := { (decodeStage s s).idex with
        instr := if s.branchTaken || s.loadUse then noopWord else s.ifid.instr }
      exmem := { (executeStage (controlOf s.idex.instr).alu s s).exmem with
        instr := if s.branchTaken then noopWord else s.idex.instr }
      memwb :=
        { instr := s.exmem.instr
          writeData :=
            if opOf s.exmem.instr = some .lw then s.dmemRead s.exmem.aluResult else s.exmem.aluResult }
      wbend := { instr := s.memwb.instr, writeData := s.memwb.writeData }
      cycles := s.cycles + 1
      fault := s.fault } :=
  State.eq_of_fields
    (config := committed_config s) (pc := committed_pc s hp) (imem := committed_imem s)
    (dmem := committed_dmem s) (reg := committed_reg s) (ifid := committed_ifid s hp)
    (idex := committed_idex s) (exmem := committed_exmem s) (memwb := committed_memwb s)
    (wbend := committed_wbend s) (cycles := committed_cycles s) (fault := committed_fault s)

/-- The commit of the five words' outcomes is the snapshot the lines of R142 build one upon the other, with and
without the squash, with and without the stall. -/
theorem committed_eq_snapshotByNumber {s : State} (hp : s.fetchable = true) :
    committed s = snapshotByNumber s := by
  have href : snapshotByNumber s = refRetire s { snapshotBeforeWriteback s with
      reg := s.reg.writeDest (destOf s.memwb.instr) s.memwb.writeData } :=
    congrArg (refRetire s) (refWriteback_eq (snapshotBeforeWriteback_reg s))
  rw [href, committed_eq_of_fetchable hp, snapshotBeforeWriteback_eq, refSquash_eq, refStore_eq, refMemory_eq]
  cases s.branchTaken <;> cases s.loadUse <;> rfl

/-- A running state takes the step of R142: the first fault, or the commit. -/
theorem step_eq_referenceStep {s : State} (hf : s.fault = none) (hh : s.haltRetired = false) :
    step s = .next (referenceStep s) := by
  cases hr : faultByNumber s with
  | some r => rw [step_of_faultByNumber hf hh hr, referenceStep_of_some hr]
  | none =>
    obtain ⟨hp, hstep, -⟩ := commits_of_faultByNumber hf hh hr
    rw [hstep, referenceStep_of_none hr, committed_eq_snapshotByNumber hp]

/-- Settles O22: the faults of R142 are `faultByNumber_eq`, its commit is `committed_eq_snapshotByNumber`. -/
theorem stepIsThePseudocodeOfTheSpec : Obligations.StepIsThePseudocodeOfTheSpec := by
  unfold Obligations.StepIsThePseudocodeOfTheSpec
  intro s hf hwb
  exact step_eq_referenceStep hf ((haltRetired_eq_false s).2 hwb)

/-! ## When a step exists (R141, R173, R254, R275) -/

theorem step_of_fault {s : State} {r : FaultReason} (h : s.fault = some r) : step s = .fault (.stuck r) := by
  simp [step_eq, h]

theorem step_of_haltRetired {s : State} (hf : s.fault = none) (hh : s.haltRetired = true) :
    step s = .fault .runEnded := by
  simp [step_eq, hf, hh]

/-- Settles O23: the three answers of a step. -/
theorem stepExistsExactlyWhenRunning : Obligations.StepExistsExactlyWhenRunning := by
  unfold Obligations.StepExistsExactlyWhenRunning
  intro s
  refine ⟨⟨?_, ?_⟩, fun r => step_of_fault, ?_⟩
  · rintro ⟨t, hstep⟩
    obtain ⟨hf, hh, -⟩ := step_cases hstep
    exact ⟨hf, (haltRetired_eq_false s).1 hh⟩
  · rintro ⟨hf, hwb⟩
    exact ⟨_, step_eq_referenceStep hf ((haltRetired_eq_false s).2 hwb)⟩
  · intro hf hwb
    exact step_of_haltRetired hf ((haltRetired_iff s).2 hwb)

theorem clockEdge_of_next {s t : State} (h : step s = .next t) : s.clockEdge = t := by
  rw [State.clockEdge, h]

theorem clockEdge_of_stop {s : State} {r : Fault} (h : step s = .fault r) : s.clockEdge = s := by
  rw [State.clockEdge, h]

/-- Settles O43: an edge commits the step of a running block and nothing in the two other cases. -/
theorem clockIsIgnoredWhenHaltedOrFaulted : Obligations.ClockIsIgnoredWhenHaltedOrFaulted := by
  unfold Obligations.ClockIsIgnoredWhenHaltedOrFaulted
  intro s
  cases hf : s.fault with
  | some r =>
    have hstop := clockEdge_of_stop (step_of_fault hf)
    simp [hstop]
  | none =>
    cases hh : s.haltRetired with
    | true =>
      have hstop := clockEdge_of_stop (step_of_haltRetired hf hh)
      simp [hstop, State.halted, hh]
    | false =>
      have hrun := step_eq_referenceStep hf hh
      simp [clockEdge_of_next hrun, hrun, State.halted, hh]

/-! ## What a commit leaves (R143, R145, R148, R160, R163, R166) -/

/-- Settles O26: a commit counts, a fault changes no other field. -/
theorem cyclesCountsCommittedCycles : Obligations.CyclesCountsCommittedCycles := by
  unfold Obligations.CyclesCountsCommittedCycles
  intro s t hstep
  refine ⟨fun hn => cycles_of_commits ⟨hstep, hn⟩, ?_⟩
  intro hfault
  obtain ⟨hf, -, ⟨r, rfl, -⟩ | ⟨-, -, rfl⟩⟩ := step_cases hstep
  · exact State.raise_cycles s r
  · exact absurd ((committed_fault s).trans hf) hfault

/-- Settles O28, by `committed_pc` and `committed_ifid`. -/
theorem fetchFillsTheFetchLatch : Obligations.FetchFillsTheFetchLatch := by
  unfold Obligations.FetchFillsTheFetchLatch
  intro s t hst
  obtain ⟨-, -, -, hp, rfl⟩ := (commits_iff s t).1 hst
  rw [committed_pc s hp, committed_ifid s hp]
  refine ⟨?_, ?_, ?_⟩
  · intro hu hb
    simp [hu, hb, State.fetchWord, State.imemRead, addressOf]
  · intro hu hb
    simp [hu, hb]
  · intro hb
    simp [hb, noopWord]

/-- Settles O29, by `committed_idex`. -/
theorem decodeReadsTheRegistersBeforeWriteback : Obligations.DecodeReadsTheRegistersBeforeWriteback := by
  unfold Obligations.DecodeReadsTheRegistersBeforeWriteback
  intro s t hst
  obtain ⟨-, -, -, -, rfl⟩ := (commits_iff s t).1 hst
  rw [committed_idex]
  refine ⟨rfl, rfl, rfl, rfl, ?_⟩
  intro hu hb
  simp [hu, hb]

/-- A bubble in `IDEX` calls for no stall (R147). -/
theorem loadUse_of_noop {s : State} (h : opOf s.idex.instr = some .noop) : s.loadUse = false := by
  simp [State.loadUse, h]

theorem committed_idex_instr_of_stall_or_squash {s : State} (h : s.branchTaken = true ∨ s.loadUse = true) :
    (committed s).idex.instr = noopWord := by
  rw [committed_idex]
  exact if_pos (by simpa using h)

/-- Settles O30: with the stall and no squash; the bubble it leaves in `IDEX` is no load. -/
theorem loadUseStallInsertsExactlyOneBubble : Obligations.LoadUseStallInsertsExactlyOneBubble := by
  unfold Obligations.LoadUseStallInsertsExactlyOneBubble
  intro s t hst hb hlw hnames
  have hu : s.loadUse = true := (loadUse_iff_opcode s).2 ⟨hlw, hnames⟩
  obtain ⟨-, -, -, hp, rfl⟩ := (commits_iff s t).1 hst
  have hbubble : (committed s).idex.instr = noopWord := committed_idex_instr_of_stall_or_squash (.inr hu)
  refine ⟨?_, ?_, hbubble, committed_exmem_instr_of_not_taken hb, ?_, ?_, ?_⟩
  · simp [committed_pc s hp, hb, hu]
  · simp [committed_ifid s hp, hb, hu]
  · rw [committed_memwb]
  · rw [committed_wbend]
  · exact loadUse_of_noop (hbubble ▸ opOf_noopWord)

/-- Settles O31: the squash wins over the stall, and Memory passes the `beq` on. -/
theorem takenBranchSquashesThreeWords : Obligations.TakenBranchSquashesThreeWords := by
  unfold Obligations.TakenBranchSquashesThreeWords
  intro s t hst hbeq heq
  have hb : s.branchTaken = true := (branchTaken_iff_opcode s).2 ⟨hbeq, heq⟩
  obtain ⟨-, -, -, hp, rfl⟩ := (commits_iff s t).1 hst
  refine ⟨?_, ?_, committed_idex_instr_of_stall_or_squash (.inl hb), ?_, ?_⟩
  · simp [committed_pc s hp, hb]
  · rw [committed_ifid_instr s hp, if_pos hb]
    rfl
  · rw [committed_exmem, if_pos hb]
    rfl
  · have hdata := committed_writeData_of_not_lw (s := s) (by omega)
    rw [← hdata, committed_memwb]

theorem destOf_of_add_or_nor {w : Word} (h : opcode w = 0 ∨ opcode w = 1) :
    destOf w = some (destIndex (fieldC w)) := by
  obtain h | h := h
  · simp [destOf, (opOf_iff w .add).2 h]
  · simp [destOf, (opOf_iff w .nor).2 h]

/-- Only bits `[2:0]` of `fieldC` count (R95, R99). -/
theorem destIndex_eq_iff (c : Half) (i : RegIdx) : destIndex c = i ↔ i.toNat = c.toNat % 8 := by
  rw [← BitVec.toNat_inj, destIndex, BitVec.extractLsb'_toNat, Nat.shiftRight_zero, eq_comm]

/-- Settles O37: the destination of an `add` or a `nor` as a number. -/
theorem addAndNorWriteTheLowThreeBitsOfFieldC : Obligations.AddAndNorWriteTheLowThreeBitsOfFieldC := by
  unfold Obligations.AddAndNorWriteTheLowThreeBitsOfFieldC
  intro s t hst hop i
  obtain ⟨-, -, -, -, rfl⟩ := (commits_iff s t).1 hst
  simp only [committed_reg_read, destOf_of_add_or_nor hop, Option.some.injEq, destIndex_eq_iff]

/-! ## The meaning of one instruction and the work of its word (R142, R172, R200) -/

theorem sameInstr_iff_decode {w : Word} {i : Instr} (hw : decode w = .ok i) (v : Word) :
    sameInstr w v = true ↔ decode v = .ok i := by
  rw [sameInstr, hw, isWord_iff]

theorem exec_eq_runWord {w : Word} {i : Instr} (hw : decode w = .ok i) (s : State) : exec i s = runWord w s := by
  rw [runWord, hw]

/-- Every meaning is the shared operation, so it answers a next state. -/
theorem exists_exec_eq_next (i : Instr) (s : State) : ∃ t, exec i s = .next t := by
  have hrun (c : Control) : ∃ t, runStages i.isWord c s = .next t := by
    obtain ⟨r, -, h⟩ | ⟨-, h⟩ := runStages_cases i.isWord c s
    · exact ⟨_, h⟩
    · exact ⟨_, h⟩
  cases i <;> exact hrun _

/-- Where the meaning of an instruction records no fault, it is the work of the stages for any word that is the
instruction. -/
theorem eq_workOf_of_exec {w : Word} {i : Instr} {s t : State} (hw : decode w = .ok i) (h : exec i s = .next t)
    (ht : t.fault = none) : t = workOf w s := by
  rw [exec_eq_runWord hw, runWord_eq] at h
  obtain ⟨r, -, hr⟩ | ⟨-, hn⟩ := runStages_cases (sameInstr w) (controlOf w) s
  · obtain rfl : s.raise r = t := Host.Outcome.next.inj (hr.symm.trans h)
    cases ht
  · exact Host.Outcome.next.inj (h.symm.trans hn)

/-- The instruction in `EXMEM` records no fault exactly when the word there raises none (R244). -/
theorem oldestFault_of_exec {i : Instr} {s t : State} (hi : decode s.exmem.instr = .ok i)
    (h : exec i s = .next t) (ht : t.fault = none) : s.oldestFault = none := by
  rw [exec_eq_runWord hi, runWord_exmem] at h
  cases ho : s.oldestFault with
  | none => rfl
  | some r =>
    rw [ho] at h
    cases h
    cases ht

theorem exec_of_no_fault {w : Word} {i : Instr} {s : State} (hw : decode w = .ok i) (ho : s.oldestFault = none) :
    exec i s = .next (workOf w s) := by
  rw [exec_eq_runWord hw, runWord_of_no_fault w ho]

/-- Settles O21: the work of the five words, committed with its two overrides. -/
theorem stepRunsTheDecodedInstructionsInFlight : Obligations.StepRunsTheDecodedInstructionsInFlight := by
  unfold Obligations.StepRunsTheDecodedInstructionsInFlight
  intro s tm f d x m w hf hwb hp hdf hdd hdx hdm hdw hm hn
  have ho : s.oldestFault = none := oldestFault_of_exec hdm hm hn
  obtain rfl : tm = workOf s.exmem.instr s := eq_workOf_of_exec hdm hm hn
  have hh : s.haltRetired = false := decide_eq_false hwb
  refine ⟨_, _, _, _, exec_of_no_fault hdf ho, exec_of_no_fault hdd ho, exec_of_no_fault hdx ho,
    exec_of_no_fault hdw ho, ?_⟩
  obtain ⟨hstep, -⟩ := (commits_iff s _).2 ⟨hf, hh, ho, hp, rfl⟩
  rw [hstep, committed, commit, ← hf]
  cases s.branchTaken <;> cases s.loadUse <;> rfl

/-! Fetch and Decode in the work for a word that neither stalls from `IDEX` nor redirects from `EXMEM`. -/

section
variable {s : State} {w : Word}

theorem executeWork_keeps_of_no_stall (h : sameInstr w s.idex.instr = true → s.loadUse = false) {s' t : State}
    (ht : t = if sameInstr w s.idex.instr then executeWork (controlOf w) s s' else s') :
    t.pc = s'.pc ∧ t.ifid = s'.ifid ∧ t.idex = s'.idex := by
  subst ht
  split
  · rename_i hw
    rw [executeWork_of_no_stall s w s' (h hw) hw]
    exact ⟨rfl, rfl, rfl⟩
  · exact ⟨rfl, rfl, rfl⟩

theorem memoryWork_keeps_of_no_redirect (h : sameInstr w s.exmem.instr = true → s.branchTaken = false)
    {s' t : State} (ht : t = if sameInstr w s.exmem.instr then memoryWork (controlOf w).mem s s' else s') :
    t.pc = s'.pc ∧ t.ifid = s'.ifid ∧ t.idex = s'.idex := by
  subst ht
  split
  · rename_i hw
    obtain ⟨hpc, hifid, hidex, -⟩ :=
      memoryWork_of_notRedirecting _ _ s (s' := s') hw (notRedirecting_of_not_taken s w (h hw))
    exact ⟨hpc, hifid, hidex⟩
  · exact ⟨rfl, rfl, rfl⟩

/-- Nothing later in the cycle overrides what Fetch and Decode wrote. -/
theorem workOf_fetch_decode (hx : sameInstr w s.idex.instr = true → s.loadUse = false)
    (hm : sameInstr w s.exmem.instr = true → s.branchTaken = false) :
    let s1 := if s.fetchable && sameInstr w s.fetchWord then fetchStage s s else s
    let s2 := if sameInstr w s.ifid.instr then decodeStage s s1 else s1
    (workOf w s).pc = s2.pc ∧ (workOf w s).ifid = s2.ifid ∧ (workOf w s).idex = s2.idex := by
  intro s1 s2
  let s3 := if sameInstr w s.idex.instr then executeWork (controlOf w) s s2 else s2
  obtain ⟨hpc3, hifid3, hidex3⟩ := executeWork_keeps_of_no_stall hx (t := s3) rfl
  obtain ⟨hpc4, hifid4, hidex4⟩ := memoryWork_keeps_of_no_redirect hm (s' := s3) rfl
  rw [← hpc3, ← hpc4, ← hifid3, ← hifid4, ← hidex3, ← hidex4]
  unfold workOf stageWork
  cases sameInstr w s.memwb.instr with
  | true => exact ⟨rfl, rfl, rfl⟩
  | false => exact ⟨rfl, rfl, rfl⟩

theorem workOf_fetched_alone (hx : sameInstr w s.idex.instr = true → s.loadUse = false)
    (hm : sameInstr w s.exmem.instr = true → s.branchTaken = false) (hp : s.fetchable = true)
    (hw : sameInstr w s.fetchWord = true) :
    (workOf w s).ifid = { instr := s.fetchWord, pcPlus1 := s.pc + 1#32 } ∧ (workOf w s).pc = s.pc + 1#32 := by
  obtain ⟨hpc, hifid, -⟩ := workOf_fetch_decode hx hm
  rw [hpc, hifid, hp, hw]
  split
  · exact ⟨rfl, rfl⟩
  · exact ⟨rfl, rfl⟩

theorem workOf_decoded_alone (hx : sameInstr w s.idex.instr = true → s.loadUse = false)
    (hm : sameInstr w s.exmem.instr = true → s.branchTaken = false) (hw : sameInstr w s.ifid.instr = true) :
    (workOf w s).idex = (decodeStage s s).idex := by
  obtain ⟨-, -, hidex⟩ := workOf_fetch_decode hx hm
  rw [hidex, if_pos hw]
  rfl

end

/-- Settles O15: an instruction without a fault does the work of the word at `pc`, or in `IFID`, that it is. -/
theorem everyInstructionIsFetchedAndDecoded : Obligations.EveryInstructionIsFetchedAndDecoded := by
  unfold Obligations.EveryInstructionIsFetchedAndDecoded
  intro i s _ hx hm
  obtain ⟨t, hexec⟩ := exists_exec_eq_next i s
  refine ⟨t, hexec, fun ht => ⟨?_, ?_⟩⟩
  · intro hp hw
    obtain rfl := eq_workOf_of_exec hw hexec ht
    exact workOf_fetched_alone (fun h => hx ((sameInstr_iff_decode hw _).1 h))
      (fun h => hm ((sameInstr_iff_decode hw _).1 h)) hp (sameInstr_self _)
  · intro hw
    obtain rfl := eq_workOf_of_exec hw hexec ht
    exact workOf_decoded_alone (fun h => hx ((sameInstr_iff_decode hw _).1 h))
      (fun h => hm ((sameInstr_iff_decode hw _).1 h)) (sameInstr_self _)

end Sys2Proof.Machine

/-! The statements of spec/42_instructions.md: what each instruction does in Execute, Memory and Writeback, what it
leaves unchanged, and where its result arrives after the cycles it takes. -/

namespace Sys2Proof.Machine

/-! ## The work of one instruction, stage by stage (R200) -/

/-- The load that `holds` names is not in `IDEX` in front of a word that names its destination (R147). -/
def notStalling (holds : Word → Bool) (c : Control) (s : State) : Prop :=
  holds s.idex.instr = true → c.mem = .load → namesLoadDest s.ifid.instr s.idex.instr = false

/-- `stageWork` up to Decode, before the later stages. -/
def workThroughDecode (holds : Word → Bool) (s : State) : State :=
  let s1 := if s.fetchable && holds s.fetchWord then fetchStage s s else s
  if holds s.ifid.instr then decodeStage s s1 else s1

/-- `stageWork` up to Execute, before Memory and Writeback. -/
def workThroughExecute (holds : Word → Bool) (c : Control) (s : State) : State :=
  if holds s.idex.instr then executeWork c s (workThroughDecode holds s) else workThroughDecode holds s

/-- `stageWork` up to Memory, before Writeback. -/
def workThroughMemory (holds : Word → Bool) (c : Control) (s : State) : State :=
  if holds s.exmem.instr then memoryWork c.mem s (workThroughExecute holds c s) else workThroughExecute holds c s

theorem stageWork_eq (holds : Word → Bool) (c : Control) (s : State) : stageWork holds c s =
    if holds s.memwb.instr then writebackStage c.dest s (workThroughMemory holds c s)
    else workThroughMemory holds c s := rfl

/-- Fetch and Decode do not write `EXMEM`. -/
theorem workThroughDecode_exmem (holds : Word → Bool) (s : State) : (workThroughDecode holds s).exmem = s.exmem := by
  unfold workThroughDecode
  split <;> split <;> rfl

theorem workThroughDecode_idex {holds : Word → Bool} {s : State} (hd : holds s.ifid.instr = false) :
    (workThroughDecode holds s).idex = s.idex := by
  simp only [workThroughDecode, hd, Bool.false_eq_true, if_false]
  split <;> rfl

theorem workThroughDecode_fetch {holds : Word → Bool} {s : State} (hf : holds s.fetchWord = false) :
    (workThroughDecode holds s).pc = s.pc ∧ (workThroughDecode holds s).ifid = s.ifid := by
  rw [workThroughDecode, hf, Bool.and_false]
  split <;> exact ⟨rfl, rfl⟩

theorem executeWork_of_not_stalling {c : Control} {s : State}
    (h : c.mem = .load → namesLoadDest s.ifid.instr s.idex.instr = false) (s' : State) :
    executeWork c s s' = executeStage c.alu s s' := by
  rw [executeWork, if_neg]
  simpa using h

theorem executeWork_of_stalling {c : Control} {s : State} (hc : c.mem = .load)
    (h : namesLoadDest s.ifid.instr s.idex.instr = true) (s' : State) :
    executeWork c s s' = executeStage c.alu s (stallStage s s') := by
  rw [executeWork, if_pos (by simp [hc, h])]

/-- With or without the stall, Execute does not move a `pc` and an `IFID` that Fetch has not moved (R148). -/
theorem executeWork_keeps_fetch (c : Control) {s s' : State} (hpc : s'.pc = s.pc) (hifid : s'.ifid = s.ifid) :
    (executeWork c s s').pc = s.pc ∧ (executeWork c s s').ifid = s.ifid := by
  unfold executeWork
  split
  · exact ⟨rfl, rfl⟩
  · exact ⟨hpc, hifid⟩

/-- The squash replaces the word in `EXMEM` alone (R160, R167). -/
theorem memoryWork_exmem_flag_result (m : MemOp) (s s' : State) :
    (memoryWork m s s').exmem.eq = s'.exmem.eq ∧ (memoryWork m s s').exmem.aluResult = s'.exmem.aluResult := by
  cases m with
  | branch =>
    unfold memoryWork
    cases s.exmem.eq <;> exact ⟨rfl, rfl⟩
  | pass => exact ⟨rfl, rfl⟩
  | load => exact ⟨rfl, rfl⟩
  | store => exact ⟨rfl, rfl⟩
  | unimplemented => exact ⟨rfl, rfl⟩
  | unrecognized => exact ⟨rfl, rfl⟩

section
variable {holds : Word → Bool} {c : Control} {s : State}

/-- Writeback writes none of `pc` and the first three latches. -/
theorem stageWork_young_latches : (stageWork holds c s).pc = (workThroughMemory holds c s).pc ∧
    (stageWork holds c s).ifid = (workThroughMemory holds c s).ifid ∧
    (stageWork holds c s).idex = (workThroughMemory holds c s).idex ∧
    (stageWork holds c s).exmem = (workThroughMemory holds c s).exmem := by
  rw [stageWork_eq]
  split <;> exact ⟨rfl, rfl, rfl, rfl⟩

/-- Without a redirect, neither does Memory. -/
theorem stageWork_young_latches_of_notRedirecting (hn : notRedirecting holds c s) :
    (stageWork holds c s).pc = (workThroughExecute holds c s).pc ∧
    (stageWork holds c s).ifid = (workThroughExecute holds c s).ifid ∧
    (stageWork holds c s).idex = (workThroughExecute holds c s).idex := by
  obtain ⟨hpc, hifid, hidex, -⟩ := stageWork_young_latches (holds := holds) (c := c) (s := s)
  rw [hpc, hifid, hidex, workThroughMemory]
  split
  · rename_i hm
    obtain ⟨hpc', hifid', hidex', -⟩ := memoryWork_of_notRedirecting holds c s hm hn
    exact ⟨hpc', hifid', hidex'⟩
  · exact ⟨rfl, rfl, rfl⟩

/-! What the stage that holds the instruction does. -/

theorem notRedirecting_of_mem_ne (h : c.mem ≠ .branch) : notRedirecting holds c s := fun _ hb => absurd hb h

theorem notStalling_of_mem_ne (h : c.mem ≠ .load) : notStalling holds c s := fun _ hl => absurd hl h

/-- Execute (R121 to R127, R149). -/
theorem stageWork_executed (hn : notRedirecting holds c s) (hx : holds s.idex.instr = true) :
    (stageWork holds c s).exmem =
      ⟨s.idex.instr, s.idex.offset + s.idex.pcPlus1, decide (s.operandA = s.operandB),
        alu c.alu s.operandA s.operandB s.idex.offset s.idex.pcPlus1, s.operandB⟩ := by
  rw [stageWork_exmem holds c s hn, if_pos hx]
  rfl

/-- The stall, in the work of the load that calls for it (R148). -/
theorem stageWork_stalled (hc : c.mem = .load) (hx : holds s.idex.instr = true)
    (hd : namesLoadDest s.ifid.instr s.idex.instr = true) :
    (stageWork holds c s).pc = s.pc ∧ (stageWork holds c s).ifid = s.ifid ∧
    (stageWork holds c s).idex.instr = noopWord := by
  have hn : notRedirecting holds c s := notRedirecting_of_mem_ne (by simp [hc])
  obtain ⟨hpc, hifid, hidex⟩ := stageWork_young_latches_of_notRedirecting hn
  rw [hpc, hifid, hidex, workThroughExecute, if_pos hx, executeWork_of_stalling hc hd]
  exact ⟨rfl, rfl, rfl⟩

/-- Memory for every word but a load (R158). -/
theorem stageWork_passed (hc : c.mem ≠ .load) (hm : holds s.exmem.instr = true) :
    (stageWork holds c s).memwb = ⟨s.exmem.instr, s.exmem.aluResult⟩ := by
  rw [stageWork_memwb, if_pos hm, if_neg hc]

/-- Memory for a load (R66, R156). -/
theorem stageWork_loaded (hc : c.mem = .load) (hm : holds s.exmem.instr = true) :
    (stageWork holds c s).memwb = ⟨s.exmem.instr, s.dmem.read s.exmem.aluResult.toNat⟩ := by
  rw [stageWork_memwb, if_pos hm, if_pos hc]
  rfl

/-- Memory for a store, read back from a canonical data memory (R67, R157). -/
theorem stageWork_stored (hc : c.mem = .store) (hwf : s.dmem.wf = true) (hm : holds s.exmem.instr = true)
    (addr : Nat) : (stageWork holds c s).dmem.read addr =
      if addr = addressOf s.exmem.aluResult then s.exmem.readRegB else s.dmem.read addr := by
  rw [stageWork_dmem, if_pos ⟨hm, hc⟩, State.dmemWrite, Memory.read_write _ _ _ hwf]

theorem stageWork_dmem_of_not_store (h : holds s.exmem.instr = true → c.mem ≠ .store) :
    (stageWork holds c s).dmem = s.dmem := by
  rw [stageWork_dmem, if_neg fun ⟨hm, hc⟩ => h hm hc]

/-- The redirect and the squash (R160). -/
theorem stageWork_redirected (hc : c.mem = .branch) (he : s.exmem.eq = true) (hm : holds s.exmem.instr = true) :
    (stageWork holds c s).pc = s.exmem.branchTarget ∧ (stageWork holds c s).ifid.instr = noopWord ∧
    (stageWork holds c s).idex.instr = noopWord ∧ (stageWork holds c s).exmem.instr = noopWord := by
  obtain ⟨hpc, hifid, hidex, hexmem⟩ := stageWork_young_latches (holds := holds) (c := c) (s := s)
  rw [hpc, hifid, hidex, hexmem, workThroughMemory, if_pos hm, hc, memoryWork, if_pos he]
  exact ⟨rfl, rfl, rfl, rfl⟩

/-- Writeback (R162 to R165). -/
theorem stageWork_retired (hw : holds s.memwb.instr = true) :
    (stageWork holds c s).reg = s.reg.writeDest c.dest s.memwb.writeData ∧
    (stageWork holds c s).wbend = ⟨s.memwb.instr, s.memwb.writeData⟩ := by
  rw [stageWork_reg, stageWork_wbend, if_pos hw, if_pos hw]
  exact ⟨rfl, rfl⟩

/-! What it leaves unchanged. -/

theorem stageWork_reg_read_of_ne {r : RegIdx} (h : c.dest ≠ some r) :
    (stageWork holds c s).reg.read r = s.reg.read r := by
  rw [stageWork_reg]
  split
  · rw [RegFile.read_writeDest, if_neg h]
  · rfl

theorem stageWork_reg_of_no_dest (h : c.dest = none) : (stageWork holds c s).reg = s.reg := by
  rw [stageWork_reg, h]
  exact ite_self _

theorem stageWork_exmem_flag_result (hx : holds s.idex.instr = false) :
    (stageWork holds c s).exmem.eq = s.exmem.eq ∧ (stageWork holds c s).exmem.aluResult = s.exmem.aluResult := by
  have hexec : (workThroughExecute holds c s).exmem = s.exmem := by
    rw [workThroughExecute, if_neg (by simp [hx]), workThroughDecode_exmem]
  obtain ⟨-, -, -, hexmem⟩ := stageWork_young_latches (holds := holds) (c := c) (s := s)
  rw [hexmem, workThroughMemory, ← hexec]
  split
  · exact memoryWork_exmem_flag_result _ _ _
  · exact ⟨rfl, rfl⟩

theorem stageWork_exmem_unchanged (hn : notRedirecting holds c s) (hx : holds s.idex.instr = false) :
    (stageWork holds c s).exmem = s.exmem := by
  rw [stageWork_exmem holds c s hn, if_neg (by simp [hx])]

theorem stageWork_idex_unchanged (hn : notRedirecting holds c s) (hs : notStalling holds c s)
    (hd : holds s.ifid.instr = false) : (stageWork holds c s).idex = s.idex := by
  obtain ⟨-, -, hidex⟩ := stageWork_young_latches_of_notRedirecting hn
  rw [hidex, workThroughExecute]
  split
  · rename_i hx
    rw [executeWork_of_not_stalling (hs hx), executeStage_idex, workThroughDecode_idex hd]
  · exact workThroughDecode_idex hd

theorem stageWork_fetch_unchanged (hn : notRedirecting holds c s) (hf : holds s.fetchWord = false) :
    (stageWork holds c s).pc = s.pc ∧ (stageWork holds c s).ifid = s.ifid := by
  obtain ⟨hpc, hifid, -⟩ := stageWork_young_latches_of_notRedirecting hn
  obtain ⟨hpc', hifid'⟩ := workThroughDecode_fetch hf
  rw [hpc, hifid, workThroughExecute]
  split
  · exact executeWork_keeps_fetch c hpc' hifid'
  · exact ⟨hpc', hifid'⟩

end

/-! ## The meaning of an instruction -/

/-- The control signals of an instruction (R201 to R208). -/
def instrControl : Instr → Control
  | .add _ _ c => { alu := .add, mem := .pass, dest := some (destIndex c) }
  | .nor _ _ c => { alu := .nor, mem := .pass, dest := some (destIndex c) }
  | .lw _ b _ => { alu := .address, mem := .load, dest := some b }
  | .sw _ _ _ => { alu := .address, mem := .store, dest := none }
  | .beq _ _ _ => { alu := .target, mem := .branch, dest := none }
  | .jalr _ _ _ => { alu := .zero, mem := .unimplemented, dest := none }
  | .halt _ _ _ => { alu := .zero, mem := .pass, dest := none }
  | .noop _ _ _ => { alu := .zero, mem := .pass, dest := none }

theorem exec_eq_runStages (i : Instr) (s : State) : exec i s = runStages i.isWord (instrControl i) s := by
  cases i <;> rfl

/-- What the stages do for the instruction `i`. -/
def instrWork (i : Instr) (s : State) : State := stageWork i.isWord (instrControl i) s

theorem isWord_eq_false_iff (i : Instr) (w : Word) : i.isWord w = false ↔ decode w ≠ .ok i := by
  rw [← Bool.not_eq_true, isWord_iff]

theorem faultOf_instr_eq_some_iff (i : Instr) (s : State) (r : FaultReason) :
    faultOf i.isWord (instrControl i) s = some r ↔
      decode s.exmem.instr = .ok i ∧ s.memoryFault (instrControl i).mem = some r := by
  rw [← isWord_iff, faultOf]
  split <;> simp_all

/-- An instruction whose access in Memory, if it is there, raises no fault does its stages' work. -/
theorem exec_eq_instrWork {i : Instr} {s : State}
    (h : decode s.exmem.instr = .ok i → s.memoryFault (instrControl i).mem = none) :
    exec i s = .next (instrWork i s) := by
  rw [exec_eq_runStages]
  refine runStages_of_none (Option.eq_none_iff_forall_ne_some.2 fun r hr => ?_)
  obtain ⟨hi, hfault⟩ := (faultOf_instr_eq_some_iff i s r).1 hr
  rw [h hi] at hfault
  cases hfault

/-- All a meaning can do: the fault of the instruction in `EXMEM`, or the stages' work. -/
theorem exec_cases {i : Instr} {s t : State} (h : exec i s = .next t) :
    (∃ r, decode s.exmem.instr = .ok i ∧ s.memoryFault (instrControl i).mem = some r ∧ t = s.raise r) ∨
      t = instrWork i s := by
  rw [exec_eq_runStages] at h
  obtain ⟨r, hr, hrun⟩ | ⟨-, hrun⟩ := runStages_cases i.isWord (instrControl i) s
  · obtain ⟨hi, hfault⟩ := (faultOf_instr_eq_some_iff i s r).1 hr
    exact .inl ⟨r, hi, hfault, Host.Outcome.next.inj (h.symm.trans hrun)⟩
  · exact .inr (Host.Outcome.next.inj (h.symm.trans hrun))

/-! ## Execute, Memory and Writeback of each instruction (R201 to R209) -/

/-- Memory and Writeback of an instruction that only passes its ALU result, with its destination `dest`. -/
theorem instrWork_passes {i : Instr} {s : State} (hl : (instrControl i).mem ≠ .load)
    (hst : (instrControl i).mem ≠ .store) :
    (decode s.exmem.instr = .ok i →
      (instrWork i s).memwb = ⟨s.exmem.instr, s.exmem.aluResult⟩ ∧ (instrWork i s).dmem = s.dmem) ∧
    (decode s.memwb.instr = .ok i →
      (instrWork i s).reg = s.reg.writeDest (instrControl i).dest s.memwb.writeData ∧
      (instrWork i s).wbend = ⟨s.memwb.instr, s.memwb.writeData⟩) :=
  ⟨fun hm => ⟨stageWork_passed hl ((isWord_iff i _).2 hm), stageWork_dmem_of_not_store fun _ => hst⟩,
    fun hw => stageWork_retired ((isWord_iff i _).2 hw)⟩

/-- Execute of an instruction that does not redirect. -/
theorem instrWork_executes {i : Instr} {s : State} (hb : (instrControl i).mem ≠ .branch)
    (hx : decode s.idex.instr = .ok i) : (instrWork i s).exmem =
      ⟨s.idex.instr, s.idex.offset + s.idex.pcPlus1, decide (s.operandA = s.operandB),
        alu (instrControl i).alu s.operandA s.operandB s.idex.offset s.idex.pcPlus1, s.operandB⟩ :=
  stageWork_executed (notRedirecting_of_mem_ne hb) ((isWord_iff i _).2 hx)

/-- Settles O7: the control signals of `add` in each stage. -/
theorem addRunsInExecuteMemoryAndWriteback : Obligations.AddRunsInExecuteMemoryAndWriteback := by
  unfold Obligations.AddRunsInExecuteMemoryAndWriteback
  intro a b c s
  exact ⟨instrWork (.add a b c) s, exec_eq_instrWork fun _ => rfl, instrWork_executes nofun,
    instrWork_passes nofun nofun⟩

/-- Settles O8: the control signals of `nor` in each stage. -/
theorem norRunsInExecuteMemoryAndWriteback : Obligations.NorRunsInExecuteMemoryAndWriteback := by
  unfold Obligations.NorRunsInExecuteMemoryAndWriteback
  intro a b c s
  exact ⟨instrWork (.nor a b c) s, exec_eq_instrWork fun _ => rfl, instrWork_executes nofun,
    instrWork_passes nofun nofun⟩

theorem State.memoryFault_load_of_inRange {s : State} (h : s.inRange s.exmem.aluResult = true) :
    s.memoryFault .load = none := by
  simp [State.memoryFault, h]

theorem State.memoryFault_store_of_inRange {s : State} (h : s.inRange s.exmem.aluResult = true) :
    s.memoryFault .store = none := by
  simp [State.memoryFault, h]

theorem State.memoryFault_unimplemented_of_off {s : State} (h : s.config.jalrFaults = false) :
    s.memoryFault .unimplemented = none := by
  simp [State.memoryFault, h]

theorem namesLoadDest_iff (d x : Word) : namesLoadDest d x = true ↔ fieldA d = fieldB x ∨ fieldB d = fieldB x := by
  simp [namesLoadDest]

/-- Settles O9: with the stall if the word in `IFID` names the register of the load in `IDEX`. -/
theorem lwRunsInExecuteMemoryAndWriteback : Obligations.LwRunsInExecuteMemoryAndWriteback := by
  unfold Obligations.LwRunsInExecuteMemoryAndWriteback
  intro a b off s hin
  refine ⟨instrWork (.lw a b off) s, exec_eq_instrWork fun hm => State.memoryFault_load_of_inRange (hin hm),
    ?_, ?_, ?_⟩
  · intro hx
    refine ⟨instrWork_executes nofun hx, fun hnames => ?_⟩
    obtain ⟨-, -, rfl, -⟩ := (decode_lw_iff _ a b off).1 hx
    exact stageWork_stalled rfl ((isWord_iff _ _).2 hx) ((namesLoadDest_iff _ _).2 hnames)
  · intro hm
    exact ⟨stageWork_loaded rfl ((isWord_iff _ _).2 hm), stageWork_dmem_of_not_store fun _ => nofun⟩
  · intro hw
    exact stageWork_retired ((isWord_iff _ _).2 hw)

/-- Settles O10: the one word written is read back by `stageWork_stored`. -/
theorem swRunsInExecuteMemoryAndWriteback : Obligations.SwRunsInExecuteMemoryAndWriteback := by
  unfold Obligations.SwRunsInExecuteMemoryAndWriteback
  intro a b off s hin hwf
  refine ⟨instrWork (.sw a b off) s, exec_eq_instrWork fun hm => State.memoryFault_store_of_inRange (hin hm),
    instrWork_executes nofun, ?_, ?_⟩
  · intro hm
    have hread := stageWork_stored (c := instrControl (.sw a b off)) rfl hwf ((isWord_iff _ _).2 hm)
    refine ⟨stageWork_passed nofun ((isWord_iff _ _).2 hm), ?_, ?_⟩
    · exact (hread _).trans (if_pos rfl)
    · intro addr hne
      exact (hread addr).trans (if_neg hne)
  · intro hw
    exact stageWork_retired ((isWord_iff _ _).2 hw)

/-- A `beq` that, if it is in `EXMEM`, finds its flag clear does not redirect (R159). -/
theorem notRedirecting_of_flag {i : Instr} {s : State}
    (h : (instrControl i).mem = .branch → decode s.exmem.instr = .ok i → s.exmem.eq = false) :
    notRedirecting i.isWord (instrControl i) s :=
  fun hm hb => h hb ((isWord_iff i _).1 hm)

/-- Settles O11: redirecting with the flag set, inert in Memory with the flag clear. -/
theorem beqRunsInExecuteMemoryAndWriteback : Obligations.BeqRunsInExecuteMemoryAndWriteback := by
  unfold Obligations.BeqRunsInExecuteMemoryAndWriteback
  intro a b off s
  refine ⟨instrWork (.beq a b off) s, exec_eq_instrWork fun _ => rfl, ?_, ?_, ?_⟩
  · intro hx hnot
    have hn : notRedirecting (Instr.beq a b off).isWord (instrControl (.beq a b off)) s :=
      notRedirecting_of_flag fun _ hm => Bool.eq_false_iff.2 fun he => hnot ⟨hm, he⟩
    exact stageWork_executed hn ((isWord_iff _ _).2 hx)
  · intro hm
    have hisWord := (isWord_iff _ _).2 hm
    refine ⟨stageWork_passed nofun hisWord, stageWork_dmem_of_not_store fun _ => nofun, ?_, ?_⟩
    · intro he
      exact stageWork_redirected rfl he hisWord
    · intro he hfetch
      exact stageWork_fetch_unchanged (notRedirecting_of_flag fun _ _ => he) ((isWord_eq_false_iff _ _).2 hfetch)
  · intro hw
    exact stageWork_retired ((isWord_iff _ _).2 hw)

/-- Settles O12: the control signals of `jalr` in each stage. -/
theorem jalrRunsInertWhenItDoesNotFault : Obligations.JalrRunsInertWhenItDoesNotFault := by
  unfold Obligations.JalrRunsInertWhenItDoesNotFault
  intro a b c s hoff
  exact ⟨instrWork (.jalr a b c) s, exec_eq_instrWork fun hm => State.memoryFault_unimplemented_of_off (hoff hm),
    instrWork_executes nofun, instrWork_passes nofun nofun⟩

/-- A `halt` in `WBEND` and no fault make a state final (R275). -/
theorem isFinal_of_halt {s : State} (hf : s.fault = none) (hh : opOf s.wbend.instr = some .halt) :
    s.isFinal = true := by
  simp [State.isFinal, State.haltRetired, hf, hh]

/-- Settles O13: `halt` and `noop` have the same control signals. -/
theorem haltAndNoopRunInert : Obligations.HaltAndNoopRunInert := by
  unfold Obligations.HaltAndNoopRunInert
  intro a b c s i hi
  have hc : instrControl i = { alu := .zero, mem := .pass, dest := none } := by
    obtain rfl | rfl := hi <;> rfl
  have hexec := instrWork_executes (i := i) (s := s)
  obtain ⟨hpass, hretire⟩ := instrWork_passes (i := i) (s := s) (by simp [hc]) (by simp [hc])
  rw [hc] at hexec hretire
  refine ⟨instrWork i s, exec_eq_instrWork (by simp [hc, State.memoryFault]), hexec nofun, hpass, fun hw => ?_⟩
  obtain ⟨hreg, hwbend⟩ := hretire hw
  refine ⟨hreg, hwbend, fun hhalt hf => isFinal_of_halt ((stageWork_fault _ _ s).trans hf) ?_⟩
  rw [hwbend, opOf_of_decode hw, hhalt]
  rfl

/-- The meaning of a word that is no instruction does its stages' work when it raises no fault (R209). -/
theorem runWord_of_unrecognized {w : Word} {s : State} (hw : opOf w = none)
    (hoff : s.exmem.instr = w → s.config.unrecognizedOpcodeFaults = false) :
    runWord w s =
      .next (stageWork (fun v => decide (v = w)) { alu := .zero, mem := .unrecognized, dest := none } s) := by
  rw [runWord, (decode_eq_error_iff w).2 hw]
  refine runStages_of_none ?_
  rw [faultOf]
  split
  · rename_i hm
    simp [State.memoryFault, hoff (of_decide_eq_true hm)]
  · rfl

/-- Settles O14: the work of the stages that hold the word. -/
theorem unrecognizedWordRunsInert : Obligations.UnrecognizedWordRunsInert := by
  unfold Obligations.UnrecognizedWordRunsInert
  intro w s hop hoff
  refine ⟨_, runWord_of_unrecognized ((opOf_none w).2 hop) hoff, ?_, ?_, ?_, stageWork_reg_of_no_dest rfl,
    stageWork_dmem_of_not_store fun _ => nofun, stageWork_imem _ _ s, stageWork_fault _ _ s⟩
  · rintro rfl
    exact stageWork_executed (notRedirecting_of_mem_ne nofun) (decide_eq_true rfl)
  · rintro rfl
    exact stageWork_passed nofun (decide_eq_true rfl)
  · rintro rfl
    exact (stageWork_retired (decide_eq_true rfl)).2

/-! ## What each instruction leaves unchanged (R24, R29, R172, R245) -/

/-- What the meaning of `i` leaves of `s` in the next state `t`, by the control signals of `i` and the stages that
hold it. -/
structure InstrFrame (i : Instr) (s t : State) : Prop where
  config : t.config = s.config
  imem : t.imem = s.imem
  cycles : t.cycles = s.cycles
  dmem : (instrControl i).mem ≠ .store → t.dmem = s.dmem
  otherWords : s.dmem.wf = true → ∀ addr : Nat,
    (decode s.exmem.instr = .ok i → addr ≠ addressOf s.exmem.aluResult) → t.dmem.read addr = s.dmem.read addr
  allRegs : (instrControl i).dest = none → t.reg = s.reg
  otherRegs : ∀ r : RegIdx, (instrControl i).dest ≠ some r → t.reg.read r = s.reg.read r
  writeback : decode s.memwb.instr ≠ .ok i → t.reg = s.reg ∧ t.wbend = s.wbend
  memory : decode s.exmem.instr ≠ .ok i → t.memwb = s.memwb ∧ t.fault = s.fault
  flagAndResult : decode s.idex.instr ≠ .ok i → t.exmem.eq = s.exmem.eq ∧ t.exmem.aluResult = s.exmem.aluResult
  execute : notRedirecting i.isWord (instrControl i) s → decode s.idex.instr ≠ .ok i → t.exmem = s.exmem
  decoded : notRedirecting i.isWord (instrControl i) s → notStalling i.isWord (instrControl i) s →
    decode s.ifid.instr ≠ .ok i → t.idex = s.idex
  fetch : notRedirecting i.isWord (instrControl i) s → decode s.fetchWord ≠ .ok i → t.pc = s.pc ∧ t.ifid = s.ifid
  fault : t.fault = s.fault ∨
    ∃ r, s.memoryFault (instrControl i).mem = some r ∧ t = { s with fault := t.fault }

/-- A fault leaves everything else (R245). -/
theorem instrFrame_raise {i : Instr} {s : State} {r : FaultReason} (hi : decode s.exmem.instr = .ok i)
    (hr : s.memoryFault (instrControl i).mem = some r) : InstrFrame i s (s.raise r) where
  config := rfl
  imem := rfl
  cycles := rfl
  dmem _ := rfl
  otherWords _ _ _ := rfl
  allRegs _ := rfl
  otherRegs _ _ := rfl
  writeback _ := ⟨rfl, rfl⟩
  memory hne := absurd hi hne
  flagAndResult _ := ⟨rfl, rfl⟩
  execute _ _ := rfl
  decoded _ _ _ := rfl
  fetch _ _ := ⟨rfl, rfl⟩
  fault := .inr ⟨r, hr, rfl⟩

/-- A store writes the word at its address and no other (R67). -/
theorem instrWork_otherWords {i : Instr} {s : State} (hwf : s.dmem.wf = true) {addr : Nat}
    (h : decode s.exmem.instr = .ok i → addr ≠ addressOf s.exmem.aluResult) :
    (instrWork i s).dmem.read addr = s.dmem.read addr := by
  rw [instrWork, stageWork_dmem]
  split
  · rename_i hstore
    exact Memory.read_write_of_ne _ hwf (h ((isWord_iff i _).1 hstore.1))
  · rfl

theorem instrWork_writeback_unchanged {i : Instr} {s : State} (h : decode s.memwb.instr ≠ .ok i) :
    (instrWork i s).reg = s.reg ∧ (instrWork i s).wbend = s.wbend := by
  have hw : ¬ i.isWord s.memwb.instr = true := mt (isWord_iff i _).1 h
  rw [instrWork, stageWork_reg, stageWork_wbend, if_neg hw, if_neg hw]
  exact ⟨rfl, rfl⟩

theorem instrWork_memwb_unchanged {i : Instr} {s : State} (h : decode s.exmem.instr ≠ .ok i) :
    (instrWork i s).memwb = s.memwb := by
  rw [instrWork, stageWork_memwb, if_neg (mt (isWord_iff i _).1 h)]

theorem instrFrame_instrWork (i : Instr) (s : State) : InstrFrame i s (instrWork i s) where
  config := stageWork_config _ _ s
  imem := stageWork_imem _ _ s
  cycles := stageWork_cycles _ _ s
  dmem hst := stageWork_dmem_of_not_store fun _ => hst
  otherWords hwf _ := instrWork_otherWords hwf
  allRegs := stageWork_reg_of_no_dest
  otherRegs _ := stageWork_reg_read_of_ne
  writeback := instrWork_writeback_unchanged
  memory hm := ⟨instrWork_memwb_unchanged hm, stageWork_fault _ _ s⟩
  flagAndResult hx := stageWork_exmem_flag_result ((isWord_eq_false_iff i _).2 hx)
  execute hn hx := stageWork_exmem_unchanged hn ((isWord_eq_false_iff i _).2 hx)
  decoded hn hs hd := stageWork_idex_unchanged hn hs ((isWord_eq_false_iff i _).2 hd)
  fetch hn hf := stageWork_fetch_unchanged hn ((isWord_eq_false_iff i _).2 hf)
  fault := .inl (stageWork_fault _ _ s)

/-- The frame of every instruction. -/
theorem instrFrame_of_exec {i : Instr} {s t : State} (h : exec i s = .next t) : InstrFrame i s t := by
  obtain ⟨r, hi, hr, rfl⟩ | rfl := exec_cases h
  · exact instrFrame_raise hi hr
  · exact instrFrame_instrWork i s

/-- `EXMEM` and, with it, its flag. -/
theorem exmem_and_flag {e e' : EXMEM} (h : e = e') : e = e' ∧ e.eq = e'.eq := ⟨h, congrArg EXMEM.eq h⟩

/-- Settles O17: `InstrFrame` for an instruction that passes in Memory. -/
theorem addAndNorFrame : Obligations.AddAndNorFrame := by
  unfold Obligations.AddAndNorFrame
  intro a b c i s t hi hexec
  obtain ⟨hmem, hdest⟩ : (instrControl i).mem = .pass ∧ (instrControl i).dest = some (destIndex c) := by
    obtain rfl | rfl := hi <;> exact ⟨rfl, rfl⟩
  have hframe := instrFrame_of_exec hexec
  have hn : notRedirecting i.isWord (instrControl i) s := notRedirecting_of_mem_ne (by simp [hmem])
  have hs : notStalling i.isWord (instrControl i) s := notStalling_of_mem_ne (by simp [hmem])
  have hfault : t.fault = s.fault := hframe.fault.resolve_right (by simp [hmem, State.memoryFault])
  have hdmem : t.dmem = s.dmem := hframe.dmem (by simp [hmem])
  refine ⟨hframe.config, hframe.imem, hframe.cycles, hfault, fun addr => by rw [hdmem], ?_, hframe.writeback,
    fun h => (hframe.memory h).1, fun h => exmem_and_flag (hframe.execute hn h), hframe.decoded hn hs,
    hframe.fetch hn⟩
  intro r hr
  refine hframe.otherRegs r ?_
  rw [hdest, Ne, Option.some.injEq]
  exact hr.symm

theorem State.inRange_of_memoryFault {s : State} {m : MemOp} {r : FaultReason} (hm : m = .load ∨ m = .store)
    (h : s.memoryFault m = some r) : s.inRange s.exmem.aluResult = false := by
  by_contra hin
  rw [Bool.not_eq_false] at hin
  obtain rfl | rfl := hm
  · rw [State.memoryFault_load_of_inRange hin] at h
    cases h
  · rw [State.memoryFault_store_of_inRange hin] at h
    cases h

/-- A load in `IDEX` without the load-use condition does not stall (R147). -/
theorem notStalling_of_loadUse {a b : RegIdx} {off : Int} {s : State}
    (h : decode s.idex.instr = .ok (.lw a b off) → s.loadUse = false) :
    notStalling (Instr.lw a b off).isWord (instrControl (.lw a b off)) s := by
  intro hx _
  have hdecode := (isWord_iff _ _).1 hx
  simpa [State.loadUse, opOf_of_decode hdecode, Instr.op] using h hdecode

/-- Settles O18: `InstrFrame` for a load. -/
theorem lwFrame : Obligations.LwFrame := by
  unfold Obligations.LwFrame
  intro a b off s t hexec
  have hframe := instrFrame_of_exec hexec
  have hn : notRedirecting (Instr.lw a b off).isWord (instrControl (.lw a b off)) s := notRedirecting_of_mem_ne nofun
  have hdmem : t.dmem = s.dmem := hframe.dmem nofun
  refine ⟨hframe.config, hframe.imem, hframe.cycles, fun addr => by rw [hdmem], ?_, hframe.writeback, hframe.memory,
    fun h => exmem_and_flag (hframe.execute hn h), fun hd hu => hframe.decoded hn (notStalling_of_loadUse hu) hd,
    hframe.fetch hn, hframe.fault.imp_right ?_⟩
  · intro r hr
    exact hframe.otherRegs r fun heq => hr (Option.some.inj heq).symm
  · rintro ⟨r, hr, ht⟩
    exact ⟨State.inRange_of_memoryFault (.inl rfl) hr, ht⟩

/-- Settles O19: `InstrFrame` for a store. -/
theorem swFrame : Obligations.SwFrame := by
  unfold Obligations.SwFrame
  intro a b off s t hwf hexec
  have hframe := instrFrame_of_exec hexec
  have hn : notRedirecting (Instr.sw a b off).isWord (instrControl (.sw a b off)) s := notRedirecting_of_mem_ne nofun
  have hs : notStalling (Instr.sw a b off).isWord (instrControl (.sw a b off)) s := notStalling_of_mem_ne nofun
  refine ⟨hframe.config, hframe.imem, hframe.cycles, hframe.allRegs rfl, hframe.otherWords hwf,
    fun h => (hframe.writeback h).2, hframe.memory, fun h => exmem_and_flag (hframe.execute hn h),
    hframe.decoded hn hs, hframe.fetch hn, hframe.fault.imp_right ?_⟩
  rintro ⟨r, hr, ht⟩
  exact ⟨State.inRange_of_memoryFault (.inr rfl) hr, ht⟩

/-- Of the instructions that write nothing only a `jalr` can fault, and only with `jalrFaults` (R206, R244). -/
theorem jalr_of_memoryFault {a b : RegIdx} {off : Int} {c : Half} {i : Instr} {s : State} {r : FaultReason}
    (hi : i = .beq a b off ∨ i = .jalr a b c ∨ i = .halt a b c ∨ i = .noop a b c)
    (hr : s.memoryFault (instrControl i).mem = some r) : i = .jalr a b c ∧ s.config.jalrFaults = true := by
  obtain rfl | rfl | rfl | rfl := hi
  · cases hr
  · refine ⟨rfl, ?_⟩
    by_contra hoff
    cases (State.memoryFault_unimplemented_of_off (Bool.eq_false_iff.2 hoff)).symm.trans hr
  · cases hr
  · cases hr

/-- Settles O20: `InstrFrame` for an instruction without a destination and without an access. -/
theorem beqJalrHaltAndNoopFrame : Obligations.BeqJalrHaltAndNoopFrame := by
  unfold Obligations.BeqJalrHaltAndNoopFrame
  intro a b off c i s t hi hexec
  obtain ⟨hl, hst, hdest⟩ : (instrControl i).mem ≠ .load ∧ (instrControl i).mem ≠ .store ∧
      (instrControl i).dest = none := by
    obtain rfl | rfl | rfl | rfl := hi <;> exact ⟨nofun, nofun, rfl⟩
  have hbeq : (instrControl i).mem = .branch → i = .beq a b off := by
    obtain rfl | rfl | rfl | rfl := hi <;> simp [instrControl]
  have hframe := instrFrame_of_exec hexec
  have hdmem : t.dmem = s.dmem := hframe.dmem hst
  refine ⟨hframe.config, hframe.imem, hframe.cycles, hframe.allRegs hdest, fun addr => by rw [hdmem],
    fun h => (hframe.writeback h).2, hframe.memory, hframe.flagAndResult, ?_, hframe.fault.imp_right ?_⟩
  · intro hflag
    have hn : notRedirecting i.isWord (instrControl i) s := notRedirecting_of_flag fun hb => hflag (hbeq hb)
    exact ⟨hframe.execute hn, hframe.decoded hn (notStalling_of_mem_ne hl), hframe.fetch hn⟩
  · rintro ⟨r, hr, ht⟩
    obtain ⟨hjalr, hfaults⟩ := jalr_of_memoryFault hi hr
    exact ⟨hjalr, hfaults, ht⟩

/-! ## Where a result arrives (R201 to R205, R210, R211, R282) -/

theorem destIndex_fieldC (w : Word) : destIndex (fieldC w) = w.extractLsb' 0 3 := by
  simp [destIndex, fieldC]

section
variable {s s1 s2 s3 : State} (h1 : commits s s1) (h2 : commits s1 s2) (h3 : commits s2 s3)
  (hb : s.branchTaken = false)

include h1 hb in
theorem exmem_instr_of_commits : s1.exmem.instr = s.idex.instr := by
  obtain ⟨-, -, -, -, rfl⟩ := (commits_iff s s1).1 h1
  exact committed_exmem_instr_of_not_taken hb

include h1 h2 hb in
/-- The word in `IDEX` is in `MEMWB` two commits later. -/
theorem memwb_instr_of_commits : s2.memwb.instr = s.idex.instr := by
  rw [← exmem_instr_of_commits h1 hb]
  obtain ⟨-, -, -, -, rfl⟩ := (commits_iff s1 s2).1 h2
  rw [committed_memwb]

include h1 h2 h3 hb in
/-- Its destination holds, one commit later, what Memory left it to write. -/
theorem reg_read_of_commits {d : RegIdx} (hd : destOf s.idex.instr = some d) :
    s3.reg.read d = s2.memwb.writeData := by
  rw [← memwb_instr_of_commits h1 h2 hb] at hd
  obtain ⟨-, -, -, -, rfl⟩ := (commits_iff s2 s3).1 h3
  rw [committed_reg_read, if_pos hd]

include h1 h2 h3 hb in
/-- The result of an `add` or a `nor` is its ALU result of the first commit. -/
theorem reg_read_of_add_or_nor (hop : opcode s.idex.instr = 0 ∨ opcode s.idex.instr = 1) :
    s3.reg.read (s.idex.instr.extractLsb' 0 3) = s1.exmem.aluResult := by
  have hd : destOf s.idex.instr = some (s.idex.instr.extractLsb' 0 3) := by
    rw [destOf_of_add_or_nor hop, destIndex_fieldC]
  have hlw : opcode s1.exmem.instr ≠ 2 := by
    rw [exmem_instr_of_commits h1 hb]
    omega
  rw [reg_read_of_commits h1 h2 h3 hb hd]
  obtain ⟨-, -, -, -, rfl⟩ := (commits_iff s1 s2).1 h2
  exact committed_writeData_of_not_lw hlw

end

/-- Settles O48: the ALU result of the first commit reaches the register. -/
theorem addAndNorReachTheirRegister : Obligations.AddAndNorReachTheirRegister := by
  unfold Obligations.AddAndNorReachTheirRegister
  intro s s1 s2 s3 h1 h2 h3 hb
  obtain ⟨hadd, hnor, -⟩ := aluResultByOpcode s s1 h1
  constructor
  · intro hop
    rw [reg_read_of_add_or_nor h1 h2 h3 hb (.inl hop), hadd hop]
  · intro hop
    rw [reg_read_of_add_or_nor h1 h2 h3 hb (.inr hop), hnor hop]

/-- Settles O49: the ALU result of the first commit is the address of the access in the second. -/
theorem lwAndSwReachRegisterAndMemory : Obligations.LwAndSwReachRegisterAndMemory := by
  unfold Obligations.LwAndSwReachRegisterAndMemory
  intro s s1 s2 s3 h1 h2 h3 hb hwf
  obtain ⟨-, -, haddr, -⟩ := aluResultByOpcode s s1 h1
  obtain ⟨-, -, -, -, -, hdata, -⟩ := executeWritesFlagTargetAndStoreData s s1 h1
  obtain ⟨-, hload, -, hstore, -⟩ := memoryStageByOpcode s1 s2 h2 hwf
  rw [exmem_instr_of_commits h1 hb] at hload hstore
  constructor
  · intro hop
    rw [reg_read_of_commits h1 h2 h3 hb (destOf_of_lw hop), hload hop, haddr (.inl hop)]
  · intro hop
    have hdest : destOf s2.memwb.instr = none := by
      rw [memwb_instr_of_commits h1 h2 hb]
      exact destOf_of_outside (.inr (by omega))
    obtain ⟨-, -, -, -, rfl⟩ := (commits_iff s2 s3).1 h3
    rw [← haddr (.inr hop), (hstore hop).1, hdata]
    exact ⟨rfl, committed_reg s2, hdest⟩

/-- Settles O50: the flag of the first commit decides the squash of the second. -/
theorem beqIsDecidedByItsOperands : Obligations.BeqIsDecidedByItsOperands := by
  unfold Obligations.BeqIsDecidedByItsOperands
  intro s s1 s2 h1 h2 hb hop
  obtain ⟨-, -, -, hflag, htarget, -⟩ := executeWritesFlagTargetAndStoreData s s1 h1
  have hbeq : opcode s1.exmem.instr = 4 := (exmem_instr_of_commits h1 hb).symm ▸ hop
  constructor
  · intro heq
    obtain ⟨hpc, hifid, hidex, hexmem, -⟩ := takenBranchSquashesThreeWords s1 s2 h2 hbeq (hflag.2 heq)
    rw [hpc, htarget, BitVec.add_comm]
    exact ⟨rfl, hifid, hidex, hexmem⟩
  · intro hne
    have hnot : s1.branchTaken = false :=
      Bool.eq_false_iff.2 fun ht => hne (hflag.1 ((branchTaken_iff_opcode s1).1 ht).2)
    exact ⟨hnot, exmem_instr_of_commits h2 hnot⟩

end Sys2Proof.Machine

/-! The statements of spec/60_exceptions.md: what a faulting cycle leaves, and which fault it records. -/

namespace Sys2Proof.Machine

/-! ## A faulting cycle (R141, R245) -/

/-- Settles O24: of the two ways a step can go, only `raise` leaves a fault. -/
theorem faultingCycleCommitsNothing : Obligations.FaultingCycleCommitsNothing := by
  unfold Obligations.FaultingCycleCommitsNothing
  intro s t r hstep hfault
  refine ⟨?_, step_of_fault hfault⟩
  obtain ⟨hf, -, ⟨r', rfl, -⟩ | ⟨-, -, rfl⟩⟩ := step_cases hstep
  · obtain rfl : r' = r := Option.some.inj hfault
    rfl
  · have hnone : (committed s).fault = none := (committed_fault s).trans hf
    simp [hnone] at hfault

/-! ## The first fault that applies (R244, R246) -/

section
variable {s : State}

theorem faultByNumber_of_unrecognized (hfaults : s.config.unrecognizedOpcodeFaults = true)
    (hop : opcode s.exmem.instr < 0 ∨ 7 < opcode s.exmem.instr) :
    faultByNumber s = some (.unrecognizedOpcode s.exmem.instr) :=
  if_pos ⟨hfaults, (opcodeRecognized_eq_false_iff _).2 ((opOf_none _).2 hop)⟩

theorem faultByNumber_of_jalr (hfaults : s.config.jalrFaults = true) (hop : opcode s.exmem.instr = 5) :
    faultByNumber s = some (.jalrUnimplemented s.exmem.instr) := by
  simp [faultByNumber, opcodeRecognized, hop, hfaults]

theorem faultByNumber_of_load (hop : opcode s.exmem.instr = 2) (haddr : s.inRange s.exmem.aluResult = false) :
    faultByNumber s = some (.loadOutOfRange s.exmem.aluResult) := by
  simp [faultByNumber, opcodeRecognized, hop, haddr]

theorem faultByNumber_of_store (hop : opcode s.exmem.instr = 3) (haddr : s.inRange s.exmem.aluResult = false) :
    faultByNumber s = some (.storeOutOfRange s.exmem.aluResult) := by
  simp [faultByNumber, opcodeRecognized, hop, haddr]

/-- Where the word in `EXMEM` raises nothing, the fetch check decides (R144). -/
theorem faultByNumber_of_exmem_passes
    (hrecognized : s.config.unrecognizedOpcodeFaults = true → 0 ≤ opcode s.exmem.instr ∧ opcode s.exmem.instr ≤ 7)
    (hjalr : s.config.jalrFaults = true → opcode s.exmem.instr ≠ 5)
    (haddr : opcode s.exmem.instr = 2 ∨ opcode s.exmem.instr = 3 → s.inRange s.exmem.aluResult = true) :
    faultByNumber s = if s.inRange s.pc = false then some (.fetchOutOfRange s.pc) else none := by
  have hword : ¬ (s.config.unrecognizedOpcodeFaults = true ∧ opcodeRecognized (opcode s.exmem.instr) = false) :=
    fun ⟨hfaults, hop⟩ => by simp [opcodeRecognized, hrecognized hfaults] at hop
  have hinert : ¬ (s.config.jalrFaults = true ∧ opcode s.exmem.instr = 5) := fun ⟨hfaults, hop⟩ => hjalr hfaults hop
  have hload : ¬ (opcode s.exmem.instr = 2 ∧ s.inRange s.exmem.aluResult = false) :=
    fun ⟨hop, hout⟩ => by simp [haddr (.inl hop)] at hout
  have hstore : ¬ (opcode s.exmem.instr = 3 ∧ s.inRange s.exmem.aluResult = false) :=
    fun ⟨hop, hout⟩ => by simp [haddr (.inr hop)] at hout
  simp only [faultByNumber, if_neg hword, if_neg hinert, if_neg hload, if_neg hstore]

end

/-- Settles O25: each clause names the value of `faultByNumber`, which is the step's outcome. -/
theorem faultsInPriorityOrder : Obligations.FaultsInPriorityOrder := by
  unfold Obligations.FaultsInPriorityOrder
  intro s hf hwb
  have hh : s.haltRetired = false := (haltRetired_eq_false s).2 hwb
  simp only [← inRange_iff, Bool.not_eq_true]
  refine ⟨?_, ?_, ?_, ?_, ?_⟩
  · exact fun hfaults hop => step_of_faultByNumber hf hh (faultByNumber_of_unrecognized hfaults hop)
  · exact fun hfaults hop => step_of_faultByNumber hf hh (faultByNumber_of_jalr hfaults hop)
  · exact fun hop haddr => step_of_faultByNumber hf hh (faultByNumber_of_load hop haddr)
  · exact fun hop haddr => step_of_faultByNumber hf hh (faultByNumber_of_store hop haddr)
  · intro hrecognized hjalr haddr
    have hfetch := faultByNumber_of_exmem_passes hrecognized hjalr haddr
    constructor
    · intro hpc
      exact step_of_faultByNumber hf hh (hfetch.trans (if_pos hpc))
    · intro hpc
      have hnone : faultByNumber s = none := hfetch.trans (if_neg (by simp [hpc]))
      exact ⟨_, (commits_of_faultByNumber hf hh hnone).2⟩

end Sys2Proof.Machine

/-! The statements of spec/70_reset_and_hazards.md: the two memories after boot, the five cycles of a word, and the
simulation of the sequential machine `SEQ` by the pipeline. -/

namespace Sys2Proof.Machine

/-! ## The memories after boot (R70, R271) -/

/-- A word a list places is the word of the list, every other word is the old one. -/
theorem Memory.read_place {m : Memory} (a : Nat) (ws : List Word) (b : Nat) (h : m.wf = true) :
    (m.place a ws).read b = if b < a then m.read b else ws.getD (b - a) (m.read b) := by
  induction ws generalizing m a with
  | nil => simp [Memory.place]
  | cons w ws ih =>
    rw [Memory.place, ih (a + 1) (Memory.wf_write a w h), Memory.read_write a w b h]
    obtain hlt | rfl | hgt := Nat.lt_trichotomy b a
    · have hne : b ≠ a := by omega
      have hlt' : b < a + 1 := by omega
      simp [hlt, hlt', hne]
    · simp
    · have hne : b ≠ a := by omega
      have hnlt : ¬ b < a := by omega
      have hnlt' : ¬ b < a + 1 := by omega
      have hsub : b - a = b - (a + 1) + 1 := by omega
      rw [if_neg hnlt, if_neg hnlt', if_neg hne, hsub, List.getD_cons_succ]

theorem Memory.read_ofImage (image : List Word) (a : Nat) :
    (Memory.ofImage image).read a = image.getD a 0#32 :=
  Memory.read_place 0 image a rfl

theorem Memory.within_ofImage {image : List Word} {n : Nat} (h : image.length ≤ n) :
    (Memory.ofImage image).within n = true :=
  Memory.within_place 0 image (by omega) rfl

/-- Settles O41: both memories are `Memory.ofImage`. -/
theorem bootMapsTheImageIntoBothMemories : Obligations.BootMapsTheImageIntoBothMemories := by
  unfold Obligations.BootMapsTheImageIntoBothMemories
  intro c image
  constructor
  · intro a
    exact ⟨Memory.read_ofImage image a, Memory.read_ofImage image a⟩
  · intro hvalid hlength
    exact (State.memoriesOk_iff _).2 ⟨hvalid, Memory.wf_ofImage image, Memory.wf_ofImage image,
      Memory.within_ofImage hlength, Memory.within_ofImage hlength⟩

/-! ## The five cycles of a word (R282) -/

/-- Settles O51: the word moves one latch in each cycle. -/
theorem fetchedWordRetiresAfterFiveCycles : Obligations.FetchedWordRetiresAfterFiveCycles := by
  unfold Obligations.FetchedWordRetiresAfterFiveCycles
  intro s s1 s2 s3 s4 s5 h1 h2 h3 h4 h5 hu hu1 hb hb1 hb2
  have hifid : s1.ifid.instr = s.imem.read s.pc.toNat := by
    obtain ⟨hfetch, -⟩ := fetchFillsTheFetchLatch s s1 h1
    rw [(hfetch hu hb).1]
  have hidex : s2.idex.instr = s1.ifid.instr := by
    obtain ⟨-, -, -, -, hword⟩ := decodeReadsTheRegistersBeforeWriteback s1 s2 h2
    exact hword hu1 hb1
  have hmemwb : s4.memwb.instr = s2.idex.instr := memwb_instr_of_commits h3 h4 hb2
  have hwbend : s5.wbend.instr = s4.memwb.instr := by
    obtain ⟨-, -, -, hretired⟩ := writebackByOpcode s4 s5 h5
    rw [hretired]
  constructor
  · rw [hwbend, hmemwb, hidex, hifid]
  · rw [cycles_of_commits h5, cycles_of_commits h4, cycles_of_commits h3, cycles_of_commits h2, cycles_of_commits h1]

/-! ## `SEQ`, one word at a time (R201 to R209, R281) -/

/-- What Execute computes for the word `w` with its operands in `r` and `p` travelling with it (R120 to R125). -/
def aluOn (r : RegFile) (w p : Word) : Word :=
  alu (controlOf w).alu (r.read (fieldA w)) (r.read (fieldB w)) (imm w) p

/-- The architectural effect of `w` in the terms of the pipeline: ALU, control signals, destination. It is
`Seq.effect` where no access is out of range (`Seq.effect_eq`). -/
def Seq.after (q : Seq) (w : Word) : Seq :=
  let result := aluOn q.reg w (q.pc + 1#32)
  { q with
    pc :=
      if opOf w = some .beq ∧ q.reg.read (fieldA w) = q.reg.read (fieldB w) then q.pc + 1#32 + imm w
      else q.pc + 1#32
    reg := q.reg.writeDest (destOf w) (if opOf w = some .lw then q.dmem.read (addressOf result) else result)
    dmem := if opOf w = some .sw then q.dmem.write (addressOf result) (q.reg.read (fieldB w)) else q.dmem }

theorem aluOn_of_access {r : RegFile} {w : Word} (h : opOf w = some .lw ∨ opOf w = some .sw) (p : Word) :
    aluOn r w p = r.read (fieldA w) + imm w := by
  rw [aluOn, controlOf_alu_of_lw_or_sw h]
  rfl

theorem Seq.effect_eq {q : Seq} {w : Word} (h : opOf w = some .lw ∨ opOf w = some .sw →
    q.inRange (aluOn q.reg w (q.pc + 1#32)) = true) : q.effect w = some (q.after w) := by
  cases hop : opOf w with
  | none => simp [Seq.effect, Seq.after, hop, destOf, RegFile.writeDest, Seq.advance]
  | some o =>
    cases o with
    | lw =>
      have haddr : aluOn q.reg w (q.pc + 1#32) = q.address w := aluOn_of_access (.inl hop) _
      rw [haddr] at h
      simp [Seq.effect, Seq.after, hop, haddr, h (.inl hop), destOf, RegFile.writeDest, Seq.advance]
    | sw =>
      have haddr : aluOn q.reg w (q.pc + 1#32) = q.address w := aluOn_of_access (.inr hop) _
      rw [haddr] at h
      simp [Seq.effect, Seq.after, hop, haddr, h (.inr hop), destOf, RegFile.writeDest, Seq.advance]
    | beq =>
      by_cases heq : q.reg.read (fieldA w) = q.reg.read (fieldB w) <;>
        simp [Seq.effect, Seq.after, hop, heq, destOf, RegFile.writeDest, Seq.advance]
    | add | nor | jalr | halt | noop =>
      simp [Seq.effect, Seq.after, hop, aluOn, controlOf, alu, destOf, RegFile.writeDest, Seq.advance]

/-! ## What the latches hold (R145, R149, R152 to R155) -/

/-- The registers as the words up to `MEMWB` leave them: those of `s` with the word in `MEMWB` written back. -/
def State.archReg (s : State) : RegFile := s.reg.writeDest (destOf s.memwb.instr) s.memwb.writeData

theorem archReg_committed (s : State) : (committed s).archReg =
    s.archReg.writeDest (destOf s.exmem.instr)
      (if opOf s.exmem.instr = some .lw then s.dmemRead s.exmem.aluResult else s.exmem.aluResult) := by
  rw [State.archReg, committed_reg, committed_memwb]
  rfl

/-- `IDEX` holds what Decode makes of the word at `a`: its operands are the registers of `s` but for the word in
`WBEND`, which Decode read too early (R146), and it names no load's destination right behind the load (R148). -/
structure HoldsDecoded (s : State) (a : Word) : Prop where
  pcPlus1 : s.idex.pcPlus1 = a + 1#32
  offset : s.idex.offset = imm s.idex.instr
  readRegA : forwardFrom s.wbend.instr s.wbend.writeData (fieldA s.idex.instr) s.idex.readRegA =
    s.reg.read (fieldA s.idex.instr)
  readRegB : forwardFrom s.wbend.instr s.wbend.writeData (fieldB s.idex.instr) s.idex.readRegB =
    s.reg.read (fieldB s.idex.instr)
  behindLoad : opOf s.exmem.instr = some .lw → namesLoadDest s.idex.instr s.exmem.instr = false

/-- `EXMEM` holds what Execute makes of the word at `a` when its operands are those the words before it leave. -/
structure HoldsExecuted (s : State) (a : Word) : Prop where
  branchTarget : s.exmem.branchTarget = a + 1#32 + imm s.exmem.instr
  eq : s.exmem.eq = true ↔ s.archReg.read (fieldA s.exmem.instr) = s.archReg.read (fieldB s.exmem.instr)
  aluResult : s.exmem.aluResult = aluOn s.archReg s.exmem.instr (a + 1#32)
  readRegB : s.exmem.readRegB = s.archReg.read (fieldB s.exmem.instr)

/-- Forwarding over a value that is current but for `WBEND` gives what the words up to `EXMEM` leave in the
register, unless it would take a load's address (R152, R153, R155). -/
theorem forward_eq_archReg {s : State} {i : RegIdx} {v : Word}
    (hv : forwardFrom s.wbend.instr s.wbend.writeData i v = s.reg.read i)
    (hload : opOf s.exmem.instr = some .lw → i ≠ fieldB s.exmem.instr) :
    s.forward i v = (committed s).archReg.read i := by
  have hmemwb : forwardFrom s.memwb.instr s.memwb.writeData i (s.reg.read i) = s.archReg.read i := by
    rw [State.archReg, RegFile.read_writeDest, forwardFrom]
  rw [State.forward, hv, hmemwb, archReg_committed, RegFile.read_writeDest, forwardFrom]
  by_cases hlw : opOf s.exmem.instr = some .lw
  · have hdest : destOf s.exmem.instr ≠ some i := by
      rw [destOf_of_lw ((opOf_iff _ .lw).1 hlw), Ne, Option.some.injEq]
      exact (hload hlw).symm
    rw [if_neg hdest, if_neg hdest]
  · rw [if_neg hlw]

namespace HoldsDecoded

section
variable {s : State} {a : Word} (h : HoldsDecoded s a)
include h

theorem fields_ne_of_load (hlw : opOf s.exmem.instr = some .lw) :
    fieldA s.idex.instr ≠ fieldB s.exmem.instr ∧ fieldB s.idex.instr ≠ fieldB s.exmem.instr := by
  simpa [namesLoadDest] using h.behindLoad hlw

theorem operandA_eq : s.operandA = (committed s).archReg.read (fieldA s.idex.instr) :=
  forward_eq_archReg h.readRegA fun hlw => (h.fields_ne_of_load hlw).1

theorem operandB_eq : s.operandB = (committed s).archReg.read (fieldB s.idex.instr) :=
  forward_eq_archReg h.readRegB fun hlw => (h.fields_ne_of_load hlw).2

/-- Execute takes a decoded word to an executed one. -/
theorem executed (hb : s.branchTaken = false) : HoldsExecuted (committed s) a := by
  have hword : (committed s).exmem.instr = s.idex.instr := committed_exmem_instr_of_not_taken hb
  constructor
  · rw [committed_branchTarget, hword, h.offset, h.pcPlus1, BitVec.add_comm]
  · rw [committed_exmem_eq_iff, hword, h.operandA_eq, h.operandB_eq]
  · rw [committed_aluResult, hword, h.operandA_eq, h.operandB_eq, h.offset, h.pcPlus1, aluOn]
  · rw [committed_exmem_readRegB, hword, h.operandB_eq]

end

end HoldsDecoded

/-- What Decode reads from the registers is current after the cycle, but for the word then in `WBEND` (R146). -/
theorem forwardFrom_committed_wbend (s : State) (i : RegIdx) :
    forwardFrom (committed s).wbend.instr (committed s).wbend.writeData i (s.reg.read i) =
      (committed s).reg.read i := by
  rw [committed_wbend, committed_reg_read, forwardFrom]

/-- Decode takes a fetched word to a decoded one. -/
theorem holdsDecoded_committed {s : State} {a : Word} (hb : s.branchTaken = false) (hu : s.loadUse = false)
    (hp : s.ifid.pcPlus1 = a + 1#32) : HoldsDecoded (committed s) a := by
  have hidex : (committed s).idex = (decodeStage s s).idex := by
    rw [committed_idex, hb, hu]
    rfl
  constructor
  · rw [hidex]
    exact hp
  · rw [hidex]
    rfl
  · rw [hidex]
    exact forwardFrom_committed_wbend s _
  · rw [hidex]
    exact forwardFrom_committed_wbend s _
  · rw [hidex, committed_exmem_instr_of_not_taken hb]
    intro hlw
    simpa [State.loadUse, hlw] using hu

/-! ## The words in flight (R143, R148, R160) -/

/-- A latch holds `w`: the word at `a`, with `next` the address behind it and its fields as `Fields` says, or the
bubble, which takes no address. -/
def Slot (s : State) (Fields : Prop) (a w next : Word) : Prop :=
  (s.inRange a = true ∧ w = s.imemRead a ∧ next = a + 1#32 ∧ Fields) ∨ (w = noopWord ∧ next = a)

theorem Slot.bubble (s : State) (Fields : Prop) (a : Word) : Slot s Fields a noopWord a := .inr ⟨rfl, rfl⟩

/-- No cycle changes what stands at an address. -/
theorem Slot.committed {s : State} {Fields Fields' : Prop} {a w next : Word} (h : Slot s Fields a w next)
    (himp : Fields → Fields') : Slot (committed s) Fields' a w next := by
  obtain ⟨hin, hw, hnext, hfields⟩ | hbubble := h
  · left
    simp only [State.inRange, State.imemRead, committed_config, committed_imem]
    exact ⟨hin, hw, hnext, himp hfields⟩
  · exact .inr hbubble

/-- A slot that takes an address holds the word there. -/
theorem Slot.fields_of_next {s : State} {Fields : Prop} {a w : Word} (h : Slot s Fields a w (a + 1#32)) :
    w = s.imemRead a ∧ Fields := by
  obtain ⟨-, hw, -, hfields⟩ | ⟨-, hnext⟩ := h
  · exact ⟨hw, hfields⟩
  · have hne : a + 1#32 ≠ a := by bv_omega
    exact absurd hnext hne

/-- The words in flight are those from `a` on, one behind the other up to `pc`: the one in `EXMEM` at `a`, the one
in `IDEX` at `b`, the one in `IFID` at `c`. Right behind a `halt` there is no bubble. -/
structure InFlight (s : State) (a b c : Word) : Prop where
  exmem : Slot s (HoldsExecuted s a) a s.exmem.instr b
  idex : Slot s (HoldsDecoded s b) b s.idex.instr c
  ifid : Slot s (s.ifid.pcPlus1 = c + 1#32) c s.ifid.instr s.pc
  behindHaltInExmem : opOf s.exmem.instr = some .halt → c = b + 1#32
  behindHaltInIdex : opOf s.idex.instr = some .halt → s.pc = c + 1#32

/-- With the bubble in the three latches no word is in flight, and `pc` is the next address. -/
theorem inFlight_of_bubbles {s : State} (hexmem : s.exmem.instr = noopWord) (hidex : s.idex.instr = noopWord)
    (hifid : s.ifid.instr = noopWord) : InFlight s s.pc s.pc s.pc where
  exmem := hexmem ▸ .bubble s _ _
  idex := hidex ▸ .bubble s _ _
  ifid := hifid ▸ .bubble s _ _
  behindHaltInExmem hhalt := by simp [hexmem, opOf_noopWord] at hhalt
  behindHaltInIdex hhalt := by simp [hidex, opOf_noopWord] at hhalt

namespace InFlight

section
variable {s : State} {a b c : Word} (h : InFlight s a b c)
include h

/-- The word in `IDEX` moves on to `EXMEM`. -/
theorem committed_exmem_slot (hb : s.branchTaken = false) :
    Slot (committed s) (HoldsExecuted (committed s) b) b (committed s).exmem.instr c := by
  rw [committed_exmem_instr_of_not_taken hb]
  exact h.idex.committed fun hdecoded => hdecoded.executed hb

/-- The three words move on with a new one behind them. -/
theorem committed_of_advance (hp : s.fetchable = true) (hb : s.branchTaken = false) (hu : s.loadUse = false) :
    InFlight (committed s) b c s.pc := by
  have hidex : (committed s).idex.instr = s.ifid.instr := by rw [committed_idex]; simp [hb, hu]
  have hifid : (committed s).ifid = { instr := s.fetchWord, pcPlus1 := s.pc + 1#32 } := by
    rw [committed_ifid s hp]; simp [hb, hu]
  have hpc : (committed s).pc = s.pc + 1#32 := by rw [committed_pc s hp]; simp [hb, hu]
  have hfetched : Slot s (s.pc + 1#32 = s.pc + 1#32) s.pc s.fetchWord (s.pc + 1#32) := .inl ⟨hp, rfl, rfl, rfl⟩
  refine ⟨h.committed_exmem_slot hb, ?_, ?_, ?_, fun _ => hpc⟩
  · rw [hidex]
    exact h.ifid.committed fun hpcPlus1 => holdsDecoded_committed hb hu hpcPlus1
  · rw [hifid, hpc]
    exact hfetched.committed id
  · rw [committed_exmem_instr_of_not_taken hb]
    exact h.behindHaltInIdex

/-- The load in `IDEX` moves on, and a bubble goes between it and the word in `IFID`. -/
theorem committed_of_stall (hp : s.fetchable = true) (hb : s.branchTaken = false) (hu : s.loadUse = true) :
    InFlight (committed s) b c c := by
  have hidex : (committed s).idex.instr = noopWord := committed_idex_instr_of_stall_or_squash (.inr hu)
  have hifid : (committed s).ifid = s.ifid := by rw [committed_ifid s hp]; simp [hb, hu]
  have hpc : (committed s).pc = s.pc := by rw [committed_pc s hp]; simp [hb, hu]
  have hlw : opOf s.idex.instr = some .lw := (opOf_iff _ .lw).2 ((loadUse_iff_opcode s).1 hu).1
  refine ⟨h.committed_exmem_slot hb, ?_, ?_, ?_, ?_⟩
  · rw [hidex]
    exact .bubble _ _ _
  · rw [hifid, hpc]
    exact h.ifid.committed id
  · rw [committed_exmem_instr_of_not_taken hb]
    intro hhalt
    simp [hlw] at hhalt
  · rw [hidex]
    intro hhalt
    simp [opOf_noopWord] at hhalt

/-- The words in flight after a cycle without a taken branch: those behind the one in `EXMEM`. -/
theorem committed_of_not_taken (hp : s.fetchable = true) (hb : s.branchTaken = false) :
    ∃ c' d', InFlight (committed s) b c' d' := by
  cases hu : s.loadUse with
  | true => exact ⟨c, c, h.committed_of_stall hp hb hu⟩
  | false => exact ⟨c, s.pc, h.committed_of_advance hp hb hu⟩

end

end InFlight

/-- After a taken branch every word in flight is at its target. -/
theorem inFlight_committed_of_taken {s : State} (hp : s.fetchable = true) (hb : s.branchTaken = true) :
    ∃ b c, InFlight (committed s) s.exmem.branchTarget b c := by
  have hpc : (committed s).pc = s.exmem.branchTarget := by rw [committed_pc s hp]; simp [hb]
  rw [← hpc]
  refine ⟨_, _, inFlight_of_bubbles ?_ ?_ ?_⟩
  · simp [committed_exmem, hb]
  · exact committed_idex_instr_of_stall_or_squash (.inl hb)
  · simp [committed_ifid s hp, hb]

/-! ## The simulation (R281) -/

/-- `SEQ` stands before the word in `EXMEM`: it has executed every word up to the one in `MEMWB`, none of them a
`halt`. -/
structure Simulates (s : State) (q : Seq) : Prop where
  config : q.config = s.config
  imem : q.imem = s.imem
  reg : q.reg = s.archReg
  dmem : q.dmem = s.dmem
  inFlight : ∃ b c, InFlight s q.pc b c
  noHaltInMemwb : opOf s.memwb.instr ≠ some .halt
  noHaltInWbend : opOf s.wbend.instr ≠ some .halt

theorem simulates_reset (c : Config) (imem0 dmem0 : Memory) :
    Simulates (State.resetWith c imem0 dmem0) (Seq.start c imem0 dmem0) where
  config := rfl
  imem := rfl
  reg := by
    have hdest : destOf noopWord = none := destOf_of_noop opOf_noopWord
    rw [State.archReg]
    simp [State.resetWith, Seq.start, hdest, RegFile.writeDest]
  dmem := rfl
  inFlight := ⟨_, _, inFlight_of_bubbles rfl rfl rfl⟩
  noHaltInMemwb := by simp [State.resetWith, opOf_noopWord]
  noHaltInWbend := by simp [State.resetWith, opOf_noopWord]

namespace Simulates

section
variable {s : State} {q : Seq} (h : Simulates s q)
include h

theorem inRange_eq (a : Word) : q.inRange a = s.inRange a := by
  rw [Seq.inRange, State.inRange, h.config]

theorem wordAt_eq (a : Word) : q.wordAt a = s.imemRead a := by
  rw [Seq.wordAt, State.imemRead, h.imem]

/-- A `halt` in `EXMEM` is the one `SEQ` stands at. -/
theorem atHalt (hhalt : opOf s.exmem.instr = some .halt) : q.atHalt = true := by
  obtain ⟨b, c, hflight⟩ := h.inFlight
  obtain ⟨hin, hword, -⟩ | ⟨hbubble, -⟩ := hflight.exmem
  · rw [hword] at hhalt
    simp [Seq.atHalt, h.inRange_eq, h.wordAt_eq, hin, hhalt]
  · simp [hbubble, opOf_noopWord] at hhalt

/-- `SEQ` can execute a word in `EXMEM` that raises no fault and is no `halt`. -/
theorem next_eq (hin : s.inRange q.pc = true) (hword : s.exmem.instr = s.imemRead q.pc)
    (hexec : HoldsExecuted s q.pc) (ho : s.oldestFault = none) (hhalt : opOf s.exmem.instr ≠ some .halt) :
    q.next = some (q.after s.exmem.instr) := by
  have haccess : opOf s.exmem.instr = some .lw ∨ opOf s.exmem.instr = some .sw →
      q.inRange (aluOn q.reg s.exmem.instr (q.pc + 1#32)) = true := by
    rw [h.reg, ← hexec.aluResult, h.inRange_eq]
    rintro (hlw | hsw)
    · simpa [oldestFault_eq, hlw] using ho
    · exact State.inRange_of_store hsw ho
  have hwordAt : q.wordAt q.pc = s.exmem.instr := (h.wordAt_eq _).trans hword.symm
  rw [← Seq.effect_eq haccess, Seq.next, Seq.atHalt, hwordAt, h.inRange_eq, hin]
  simp [hhalt]

/-- A commit keeps the simulation with any state of `SEQ` that has the registers, the memory and the place the
commit leads to, as long as no `halt` reaches `MEMWB`. -/
theorem committed_of_eq {q' : Seq} (hconfig : q'.config = q.config) (himem : q'.imem = q.imem)
    (hreg : q'.reg = (committed s).archReg) (hdmem : q'.dmem = (committed s).dmem)
    (hflight : ∃ b c, InFlight (committed s) q'.pc b c) (hhalt : opOf s.exmem.instr ≠ some .halt) :
    Simulates (committed s) q' where
  config := by rw [hconfig, h.config, committed_config]
  imem := by rw [himem, h.imem, committed_imem]
  reg := hreg
  dmem := hdmem
  inFlight := hflight
  noHaltInMemwb := by rw [committed_memwb]; exact hhalt
  noHaltInWbend := by rw [committed_wbend]; exact h.noHaltInMemwb

/-- A bubble in `EXMEM` leaves `SEQ` where it stands. -/
theorem committed_of_bubble {b c : Word} (hflight : InFlight s q.pc b c) (hbubble : s.exmem.instr = noopWord)
    (hb : b = q.pc) (hp : s.fetchable = true) : Simulates (committed s) q := by
  have hop : opOf s.exmem.instr = some .noop := hbubble ▸ opOf_noopWord
  have hnot : s.branchTaken = false := by simp [State.branchTaken, hop]
  refine h.committed_of_eq rfl rfl ?_ ?_ (hb ▸ hflight.committed_of_not_taken hp hnot) (by simp [hop])
  · rw [archReg_committed, destOf_of_noop hop, h.reg]
    rfl
  · rw [committed_dmem, if_neg (by simp [hop]), h.dmem]

/-- The word in `EXMEM` takes the block and `SEQ` alike. -/
theorem committed_of_word {b c : Word} (hflight : InFlight s q.pc b c) (hexec : HoldsExecuted s q.pc)
    (hb : b = q.pc + 1#32) (hhalt : opOf s.exmem.instr ≠ some .halt) (hp : s.fetchable = true) :
    Simulates (committed s) (q.after s.exmem.instr) := by
  have htaken : s.branchTaken = true ↔ opOf s.exmem.instr = some .beq ∧
      q.reg.read (fieldA s.exmem.instr) = q.reg.read (fieldB s.exmem.instr) := by
    rw [h.reg, ← hexec.eq]
    simp [State.branchTaken]
  refine h.committed_of_eq rfl rfl ?_ ?_ ?_ hhalt
  · rw [archReg_committed, hexec.aluResult, State.dmemRead, ← h.reg, ← h.dmem]
    rfl
  · rw [committed_dmem, hexec.aluResult, hexec.readRegB, State.dmemWrite, ← h.reg, ← h.dmem]
    rfl
  · cases hbr : s.branchTaken with
    | true =>
      have hpc : (q.after s.exmem.instr).pc = s.exmem.branchTarget :=
        (if_pos (htaken.1 hbr)).trans hexec.branchTarget.symm
      exact hpc ▸ inFlight_committed_of_taken hp hbr
    | false =>
      have hpc : (q.after s.exmem.instr).pc = b :=
        (if_neg fun hbeq => by simp [htaken.2 hbeq] at hbr).trans hb.symm
      exact hpc ▸ hflight.committed_of_not_taken hp hbr

/-- A commit is followed by `SEQ`, which waits for a bubble and executes any other word but a `halt`. -/
theorem exists_next (hst : commits s (committed s)) (hhalt : opOf s.exmem.instr ≠ some .halt) :
    ∃ q', (q' = q ∨ q.next = some q') ∧ Simulates (committed s) q' := by
  obtain ⟨-, -, ho, hp, -⟩ := (commits_iff _ _).1 hst
  obtain ⟨b, c, hflight⟩ := h.inFlight
  obtain ⟨hin, hword, hb, hexec⟩ | ⟨hbubble, hb⟩ := hflight.exmem
  · exact ⟨_, .inr (h.next_eq hin hword hexec ho hhalt), h.committed_of_word hflight hexec hb hhalt hp⟩
  · exact ⟨q, .inl rfl, h.committed_of_bubble hflight hbubble hb hp⟩

/-- Two commits after a `halt` is in `EXMEM`: its registers, and the Memory stage of the word behind it (R279). -/
theorem committed_committed_of_halt (hhalt : opOf s.exmem.instr = some .halt) :
    (committed (committed s)).reg = q.reg ∧ (committed (committed s)).dmem = q.dmemAfterHalt := by
  obtain ⟨b, c, hflight⟩ := h.inFlight
  have hb : b = q.pc + 1#32 := by
    obtain ⟨-, -, hb, -⟩ | ⟨hbubble, -⟩ := hflight.exmem
    · exact hb
    · simp [hbubble, opOf_noopWord] at hhalt
  have hslot := hflight.committed_exmem_slot (by simp [State.branchTaken, hhalt])
  rw [hflight.behindHaltInExmem hhalt, hb] at hslot
  obtain ⟨hword, hexec⟩ := hslot.fields_of_next
  have hwordAt : q.wordAt (q.pc + 1#32) = (committed s).exmem.instr := by
    rw [hword, h.wordAt_eq, State.imemRead, State.imemRead, committed_imem]
  have hdest : destOf s.exmem.instr = none := by simp [destOf, hhalt]
  have hreg : (committed s).archReg = q.reg := by
    rw [archReg_committed, hdest, h.reg]
    rfl
  have hdmem : (committed s).dmem = q.dmem := by
    rw [committed_dmem, if_neg (by simp [hhalt]), h.dmem]
  constructor
  · rw [committed_reg, ← hreg]
    rfl
  · rw [Seq.dmemAfterHalt, hwordAt, committed_dmem, State.dmemWrite, hexec.readRegB, hexec.aluResult, hreg, hdmem]
    split
    · rename_i hsw
      rw [aluOn_of_access (.inr hsw)]
      rfl
    · rfl

end

end Simulates

/-! ## Finished runs (R275, R281) -/

/-- The first cycle of a run that raises no fault commits. -/
theorem commits_of_runsTo {k : Nat} {s t : State} (h : runsTo (k + 1) s t) (ht : t.fault = none) :
    commits s (committed s) ∧ runsTo k (committed s) t := by
  obtain ⟨u, hstep, hrest⟩ := (runsTo_succ k s t).1 h
  have hcommits : commits s u := ⟨hstep, fault_eq_none_of_runsTo hrest ht⟩
  obtain ⟨-, -, -, -, rfl⟩ := (commits_iff s u).1 hcommits
  exact ⟨hcommits, hrest⟩

theorem State.isFinal_iff (s : State) :
    s.isFinal = true ↔ s.fault = none ∧ opOf s.wbend.instr = some .halt := by
  simp [State.isFinal, State.haltRetired]

/-- A run from a state without a `halt` in `WBEND` takes a cycle before it is final. -/
theorem commits_of_runsTo_final {k : Nat} {s t : State} (h : runsTo k s t) (ht : t.isFinal = true)
    (hwbend : opOf s.wbend.instr ≠ some .halt) :
    ∃ j, k = j + 1 ∧ commits s (committed s) ∧ runsTo j (committed s) t := by
  obtain ⟨hfault, hretired⟩ := (State.isFinal_iff t).1 ht
  cases k with
  | zero =>
    rw [← (runsTo_zero s t).1 h] at hretired
    exact absurd hretired hwbend
  | succ j => exact ⟨j, rfl, commits_of_runsTo h hfault⟩

/-- A run stops at the first state with a `halt` in `WBEND` (R141). -/
theorem eq_of_runsTo_of_halt {k : Nat} {s t : State} (h : runsTo k s t) (ht : t.fault = none)
    (hwbend : opOf s.wbend.instr = some .halt) : s = t := by
  cases k with
  | zero => exact (runsTo_zero s t).1 h
  | succ j =>
    obtain ⟨hst, -⟩ := commits_of_runsTo h ht
    obtain ⟨-, hh, -⟩ := (commits_iff _ _).1 hst
    simp [State.haltRetired, hwbend] at hh

/-- R281 with R279 for a final state `t`, `SEQ` starting from `q`. -/
def AgreesWithSeq (q : Seq) (t : State) : Prop :=
  ∃ (n : Nat) (q' : Seq), Seq.run n q = some q' ∧ q'.atHalt = true ∧ t.reg = q'.reg ∧ t.dmem = q'.dmemAfterHalt

theorem AgreesWithSeq.of_next {q q' : Seq} {t : State} (hnext : q.next = some q') (h : AgreesWithSeq q' t) :
    AgreesWithSeq q t := by
  obtain ⟨n, qn, hrun, hagrees⟩ := h
  refine ⟨n + 1, qn, ?_, hagrees⟩
  rw [Seq.run, hnext]
  exact hrun

/-- With a `halt` in `EXMEM` the run ends two cycles later, and `SEQ` has already reached its `halt`. -/
theorem Simulates.agrees_of_halt {s t : State} {q : Seq} (h : Simulates s q) {k : Nat}
    (hrun : runsTo k (committed s) t) (ht : t.isFinal = true) (hhalt : opOf s.exmem.instr = some .halt) :
    AgreesWithSeq q t := by
  have hwbend : opOf (committed s).wbend.instr ≠ some .halt := by
    rw [committed_wbend]
    exact h.noHaltInMemwb
  obtain ⟨j, -, -, hrest⟩ := commits_of_runsTo_final hrun ht hwbend
  have hretired : opOf (committed (committed s)).wbend.instr = some .halt := by
    rw [committed_wbend, committed_memwb]
    exact hhalt
  obtain ⟨hreg, hdmem⟩ := h.committed_committed_of_halt hhalt
  rw [eq_of_runsTo_of_halt hrest ((State.isFinal_iff t).1 ht).1 hretired] at hreg hdmem
  exact ⟨0, q, rfl, h.atHalt hhalt, hreg, hdmem⟩

/-- A run that ends in a final state agrees with the `SEQ` that its first state simulates. -/
theorem Simulates.agrees {k : Nat} {s t : State} {q : Seq} (h : Simulates s q) (hrun : runsTo k s t)
    (ht : t.isFinal = true) : AgreesWithSeq q t := by
  induction k generalizing s q with
  | zero =>
    obtain ⟨j, hj, -⟩ := commits_of_runsTo_final hrun ht h.noHaltInWbend
    omega
  | succ k ih =>
    obtain ⟨j, hj, hst, hrest⟩ := commits_of_runsTo_final hrun ht h.noHaltInWbend
    obtain rfl : k = j := Nat.succ.inj hj
    by_cases hhalt : opOf s.exmem.instr = some .halt
    · exact h.agrees_of_halt hrest ht hhalt
    · obtain ⟨q', rfl | hnext, hsim⟩ := h.exists_next hst hhalt
      · exact ih hsim hrest
      · exact (ih hsim hrest).of_next hnext

/-- Settles O52: reset simulates `Seq.start`, and every commit keeps `Simulates` until a `halt` leaves `EXMEM`. -/
theorem finishedRunAgreesWithTheSequentialReading : Obligations.FinishedRunAgreesWithTheSequentialReading := by
  unfold Obligations.FinishedRunAgreesWithTheSequentialReading
  intro c imem0 dmem0 t hfinishes
  obtain ⟨hfinal, k, hrun⟩ := hfinishes
  exact (simulates_reset c imem0 dmem0).agrees hrun hfinal

end Sys2Proof.Machine
